-- ==== Sys2Proof/Word.lean ====
section
/-!
DEFINITION. The block's words: what the spec treats as bits.
Lengths, addresses and the cursor are natural numbers (00_scope.md R7, 92_eei_decisions.md D2) and have no type here.
-/
namespace Sys2Proof

/-- A byte of the payload memory, a character of the output, a command word: 8 bits, bit 7 most significant (00_scope.md R8). -/
abbrev Byte := BitVec 8

/-- A field value, the VAL register, the datum of a response: 32 bits, unsigned (10_state.md R25, 30_encoding.md R96). -/
abbrev Value := BitVec 32

/-- A 6-bit code, and the 6-bit argument of a command word (30_encoding.md R83, R87). -/
abbrev Code := BitVec 6

end Sys2Proof
end

