-- ==== Sys2Proof/Config.lean ====
section
/-!
DEFINITION. What an implementation fixes: the constants of 00_scope.md R6, the bounds on the open parameter RAW_MAX
(R7), and the one value the spec leaves unstated.
The constants are abbreviations so that arithmetic procedures see the numbers.
-/
namespace Sys2Proof.Config

/-- CODE_W: width in bits of one code (00_scope.md R6). -/
@[simp] abbrev codeWidth : Nat := 6

/-- WIDTH_MIN: smallest legal field width (00_scope.md R6). -/
@[simp] abbrev widthMin : Nat := 1

/-- WIDTH_MAX: largest legal field width (00_scope.md R6). -/
@[simp] abbrev widthMax : Nat := 32

/-- BYTE_W: bits per buffer byte (00_scope.md R6). -/
@[simp] abbrev byteWidth : Nat := 8

/-- LEN_OFF: payload offset of the first (high) length byte (00_scope.md R6). -/
@[simp] abbrev lengthOffset : Nat := 12

/-- SEG_OFF: payload offset of the first text-segment byte (00_scope.md R6). -/
@[simp] abbrev segmentOffset : Nat := 14

/-- RAW_MAX is "a natural number at least 14" (00_scope.md R7). -/
@[simp] abbrev rawMaxLeast : Nat := 14

/-- The value of RAW_MAX in the reset state.
DESIGN CHOICE (log 6), unsafe: R7 leaves RAW_MAX open and says only that 65549 is enough for every text segment. -/
@[simp] abbrev rawMaxAtReset : Nat := 65549

/-- FREE VALUE: the datum DECODE answers when the number of characters does not fit 32 bits.
DESIGN CHOICE (log 11), safe: 30_encoding.md R96 gives the datum 32 bits and the count no bound, and states no value
for a count of `2 ^ 32` or more. -/
opaque countBeyondDatum : Nat → Value

end Sys2Proof.Config
end

