-- ==== Sys2Proof/Syntax.lean ====
section
/-!
DEFINITION. The commands of the block, one constructor per row of spec/opcode_table.json (30_encoding.md R88).
-/
namespace Sys2Proof

/-- A command. The operands are the 6-bit argument of the command word, taken as it stands (30_encoding.md R89, R90). -/
inductive Instr where
  /-- START: open a decode pass over the current buffer (43_control.md R175). -/
  | start
  /-- FRAME: set the window to the text segment of the payload (42_payload_framer.md R160). -/
  | frame
  /-- DECODE: run a whole decode pass (41_alphabet_decoder.md R140). -/
  | decode
  /-- DEC1: one iteration of the decode loop (41_alphabet_decoder.md R135). -/
  | dec1
  /-- RDBITS w: read one field of `w` bits at the cursor (40_bitstream_reader.md R110). -/
  | rdbits (w : Code)
  /-- LOOKUP c: answer entry `c` of the character ROM (41_alphabet_decoder.md R133). -/
  | lookup (c : Code)
  deriving DecidableEq, Repr

end Sys2Proof
end

