-- ==== Sys2Proof/WellFormed.lean ====
section
/-!
DEFINITION. Which commands are legal as syntax: the only illegal operands are the RDBITS widths 0 and 33 to 63
(30_encoding.md R89, R91).
-/
namespace Sys2Proof

/-- Legal field widths are 1 to 32 inclusive (40_bitstream_reader.md R116). -/
abbrev Instr.legalWidth (w : Code) : Prop := Config.widthMin ≤ w.toNat ∧ w.toNat ≤ Config.widthMax

/-- The command's operand is legal (30_encoding.md R89, R90). -/
def Instr.wf (i : Instr) : Bool :=
  match i with
  | .start => true
  | .frame => true
  | .decode => true
  | .dec1 => true
  | .rdbits w => decide (Instr.legalWidth w)
  | .lookup _ => true

end Sys2Proof
end

