-- ==== Sys2Proof/Decode.lean ====
section
/-!
DEFINITION. The command word (30_encoding.md R87 to R91): decoder, encoder and the host's view of the decoder.

The decoder rejects the 124 reserved words. The 32 RDBITS words with an illegal operand decode to `rdbits w`, as their
row of the opcode table (mask 0xC0) matches them, and are refused by the command's own first check
(40_bitstream_reader.md R110 check (1)); DEDUCED (log 9), safe. `spellsCommand` is the spec's set of 100 words that spell
a command (R91).
-/
namespace Sys2Proof

/-- Why bytes are not an instruction. -/
inductive DecodeError where
  /-- There is no byte. -/
  | empty
  /-- The word is reserved: 0x04 to 0x3F or 0xC0 to 0xFF (30_encoding.md R91). -/
  | reserved (word : Byte)
  deriving DecidableEq, Repr

/-- `cmd[7:6]`, the command group (30_encoding.md R87). -/
def wordGroup (word : Byte) : BitVec 2 := word.extractLsb' 6 2

/-- `cmd[5:0]`, the sub-opcode or operand (30_encoding.md R87). -/
def wordArg (word : Byte) : Code := word.extractLsb' 0 6

/-- The opcode map, total on the 256 command words (30_encoding.md R88). -/
def decodeWord (word : Byte) : Except DecodeError Instr :=
  if wordGroup word = 0b00 then
    if wordArg word = 0b000000 then .ok .start
    else if wordArg word = 0b000001 then .ok .frame
    else if wordArg word = 0b000010 then .ok .decode
    else if wordArg word = 0b000011 then .ok .dec1
    else .error (.reserved word)
  else if wordGroup word = 0b01 then .ok (.rdbits (wordArg word))
  else if wordGroup word = 0b10 then .ok (.lookup (wordArg word))
  else .error (.reserved word)

/-- Decoding from bytes: every command is one byte long (30_encoding.md R87, R93). -/
def decode (bytes : List Byte) : Except DecodeError (Instr × List Byte) :=
  match bytes with
  | [] => .error .empty
  | word :: rest =>
    match decodeWord word with
    | .ok i => .ok (i, rest)
    | .error e => .error e

/-- The word spells a command with a legal operand (30_encoding.md R91: 100 words do). -/
def spellsCommand (word : Byte) : Bool :=
  match decodeWord word with
  | .ok i => i.wf
  | .error _ => false

/-- A command word from its two fields (30_encoding.md R87). -/
def commandWord (group : BitVec 2) (arg : Code) : Byte := group ++ arg

/-- The group field of a command (30_encoding.md R88). -/
def Instr.group (i : Instr) : BitVec 2 :=
  match i with
  | .start => 0b00
  | .frame => 0b00
  | .decode => 0b00
  | .dec1 => 0b00
  | .rdbits _ => 0b01
  | .lookup _ => 0b10

/-- The argument field of a command (30_encoding.md R88). -/
def Instr.arg (i : Instr) : Code :=
  match i with
  | .start => 0b000000
  | .frame => 0b000001
  | .decode => 0b000010
  | .dec1 => 0b000011
  | .rdbits w => w
  | .lookup c => c

/-- The command word of a command (30_encoding.md R88). -/
def encode (i : Instr) : Byte := commandWord i.group i.arg

/-- The command word whose low `nbits` bits are those of `w`, every bit above them 0. -/
def tableByte (nbits w : Nat) : Byte := BitVec.ofNat 8 (w % 2 ^ nbits)

/-- What the decoder reads from an instruction whose bits are `w`, numbered as the opcode table numbers them. -/
def decodeTableWord (nbits w : Nat) : Option Instr :=
  match decode [tableByte nbits w] with
  | .ok (i, _) => some i
  | .error _ => none

end Sys2Proof
end

