-- ==== Sys2Proof/Machine/State.lean ====
section
/-!
DEFINITION. The state of the block as plain data (10_state.md), the answers it gives (30_encoding.md R96,
43_control.md R179), the inputs it takes (43_control.md R176) and the state after reset (10_state.md R35).
-/
namespace Sys2Proof.Machine

/-- PHASE: where the block stands in a decode attempt (10_state.md R26). -/
inductive Phase where
  /-- A buffer may be loaded, no pass is open. -/
  | idle
  /-- A decode pass is open. -/
  | active
  /-- The pass ended normally. -/
  | done
  /-- The current decode attempt was aborted. -/
  | fault
  deriving DecidableEq, Repr

/-- ERR: the fault latch (10_state.md R29, 60_exceptions.md R190). -/
inductive ErrCode where
  /-- NONE, 0: no fault. -/
  | none
  /-- FRAMING, 1: the text segment exceeds the payload. -/
  | framing
  /-- BUFFER_EXHAUSTED, 2: a field read would run past the end of the buffer. -/
  | bufferExhausted
  /-- INVALID_TEXT, 3: a character with bit 7 set was about to be appended. -/
  | invalidText
  deriving DecidableEq, Repr

/-- `resp`, the status of a response (30_encoding.md R96). -/
inductive Resp where
  /-- OK, 0: the command did what its rule says. -/
  | ok
  /-- FAULT, 1: the command raised a fault. -/
  | fault
  /-- REFUSED, 2: no state change. -/
  | refused
  deriving DecidableEq, Repr

/-- The payload memory: the bytes that exist, by address, in one canonical form. -/
abbrev Memory := List Host.Cell

/-- The canonical form: addresses strictly rising. An unlisted address has no value at all, so every listed entry
differs from what an unlisted address reads as. -/
abbrev Memory.wf (m : Memory) : Prop := m.Pairwise fun x y => x.1 < y.1

/-- What READ observes (43_control.md R179): the registers of 10_state.md R31, STATUS, OUTLEN, OUT, and the bytes of
MEM below RAWLEN with their addresses; and the character ROM, which the READ row of R36 adds. DEDUCED (log 18). -/
structure View where
  rawLen : Nat
  base : Nat
  len : Nat
  cur : Nat
  val : Value
  phase : Phase
  err : ErrCode
  status : Byte
  outLen : Nat
  out : List Byte
  mem : List Host.Cell
  rom : List Byte
  deriving DecidableEq, Repr

/-- The answer to the last input. -/
inductive Reply where
  /-- Nothing has been answered since reset. -/
  | nothing
  /-- The response to a command or to LOAD (30_encoding.md R96). -/
  | response (resp : Resp) (rdata : Value)
  /-- What READ observed (43_control.md R179). -/
  | view (v : View)
  deriving DecidableEq, Repr

/-- One input of the step relation (43_control.md R176, R178, R179; 70_reset_and_hazards.md R220). -/
inductive Input where
  /-- The host issues a command word. -/
  | command (word : Byte)
  /-- The host move LOAD. -/
  | load (bytes : List Byte)
  /-- The host move READ. -/
  | read
  /-- The platform asserts reset. -/
  | reset
  deriving DecidableEq, Repr

/-- The state of one block. The first nine fields are the spec's; `reply`, `inbox` and `rawMax` are the model's own. -/
structure State where
  /-- MEM (10_state.md R20). -/
  mem : Memory
  /-- RAWLEN: number of valid bytes (10_state.md R20). -/
  rawLen : Nat
  /-- BASE: address of byte 0 of the buffer (10_state.md R21). -/
  base : Nat
  /-- LEN: length of the buffer in bytes (10_state.md R22). -/
  len : Nat
  /-- CUR: the bit cursor (10_state.md R24). -/
  cur : Nat
  /-- VAL: the last field value (10_state.md R25). -/
  val : Value
  /-- PHASE (10_state.md R26). -/
  phase : Phase
  /-- ERR (10_state.md R29). -/
  err : ErrCode
  /-- OUT: the output sequence, oldest first (10_state.md R28). -/
  out : List Byte
  /-- The answer to the last input (30_encoding.md R96). DESIGN CHOICE (log 3). -/
  reply : Reply
  /-- The inputs not yet taken, in the order of issue (10_state.md R38). DESIGN CHOICE (log 1). -/
  inbox : List Input
  /-- The open parameter RAW_MAX (00_scope.md R7); no step changes it. DESIGN CHOICE (log 6). -/
  rawMax : Nat
  deriving DecidableEq, Repr

/-- Why the model stops with a fault. (The block's own three faults are states it goes on from, `State.raise`.) -/
inductive Fault where
  /-- A byte of the window or of the length field does not exist. Raised by RDBITS, DEC1, DECODE and FRAME, only in
  states whose window or RAWLEN promises bytes that MEM does not hold, which no run reaches (20_memory.md R63).
  Safe: the model stops where the spec says nothing. -/
  | absentByte
  deriving DecidableEq, Repr

/-- Why a step has no meaning. -/
inductive Refusal where
  /-- The arm of an instruction without a meaning; raised by exec alone. Safe: the model stops. -/
  | notModelled (mnemonic : String)
  /-- No input is pending; raised by step alone: the block "has no step that is not the answer to a command"
  (43_control.md R176). Safe: the run has ended (R184). -/
  | noInput
  deriving DecidableEq, Repr

/-- The machine right after power-on reset (10_state.md R35, 70_reset_and_hazards.md R220). -/
def State.reset : State where
  mem := []
  rawLen := 0
  base := 0
  len := 0
  cur := 0
  val := 0
  phase := .idle
  err := .none
  out := []
  reply := .nothing
  inbox := []
  rawMax := Config.rawMaxAtReset

end Sys2Proof.Machine
end

