-- ==== Sys2Proof/Machine/Ops.lean ====
section
/-!
DEFINITION. The named operations over memory and registers: reading bytes, answering, refusing, the one fault entry, and
leaving a fault.
-/
namespace Sys2Proof.Machine

/-! ### Codes of the small registers -/

/-- The number PHASE holds (10_state.md R26). -/
def Phase.code (p : Phase) : BitVec 2 :=
  match p with
  | .idle => 0
  | .active => 1
  | .done => 2
  | .fault => 3

/-- The number ERR holds (10_state.md R29). -/
def ErrCode.code (e : ErrCode) : BitVec 2 :=
  match e with
  | .none => 0
  | .framing => 1
  | .bufferExhausted => 2
  | .invalidText => 3

/-- The number `resp` holds; 3 is unused (30_encoding.md R96). -/
def Resp.code (r : Resp) : BitVec 2 :=
  match r with
  | .ok => 0
  | .fault => 1
  | .refused => 2

/-! ### Memory -/

/-- The byte listed at an address; an unlisted address has none. -/
def Memory.read (m : Memory) (a : Nat) : Option Byte :=
  match m with
  | [] => none
  | (k, b) :: rest => if k = a then some b else Memory.read rest a

/-- The memory that holds `bytes` at the addresses from `a` up and nothing else. -/
def Memory.ofBytes (a : Nat) (bytes : List Byte) : Memory :=
  match bytes with
  | [] => []
  | b :: rest => (a, b) :: Memory.ofBytes (a + 1) rest

/-- `MemRead(a, 1)`: bytes at RAWLEN and above do not exist (00_scope.md R12, 10_state.md R20). -/
def State.memRead (s : State) (a : Nat) : Option Byte :=
  if a < s.rawLen then s.mem.read a else none

/-- The `n` bytes from address `a` up, if all of them exist. -/
def State.readRange (s : State) (a n : Nat) : Option (List Byte) :=
  match n with
  | 0 => some []
  | k + 1 =>
    match s.memRead a, s.readRange (a + 1) k with
    | some b, some bs => some (b :: bs)
    | _, _ => none

/-- The current buffer, `MEM[BASE, BASE + LEN)` (10_state.md R22, 20_memory.md R52). -/
def State.buffer (s : State) : Option (List Byte) := s.readRange s.base s.len

/-- The raw payload, `MEM[0, RAWLEN)` (00_scope.md R16). -/
def State.payload (s : State) : Option (List Byte) := s.readRange 0 s.rawLen

/-! ### Answers -/

/-- Give the answer to a command: `resp` and `rdata` (30_encoding.md R96). -/
def State.answer (s : State) (r : Resp) (d : Value) : State := { s with reply := .response r d }

/-- The command did what its rule says, with datum `d`. -/
def State.succeed (s : State) (d : Value) : Host.Outcome State Fault Refusal := .next (s.answer .ok d)

/-- `refuse`: answer REFUSED with datum 0 and change no state (00_scope.md R13, 43_control.md R177). -/
def State.refuse (s : State) : Host.Outcome State Fault Refusal := .next (s.answer .refused 0)

/-! ### Fault entry, and leaving a fault -/

/-- What a fault writes: PHASE, ERR and OUT, nothing else (60_exceptions.md R196). -/
def State.enterFault (s : State) (f : ErrCode) : State := { s with phase := .fault, err := f, out := [] }

/-- `raise f`: the fault entry and the FAULT response with the code as datum (60_exceptions.md R196). -/
def State.raise (s : State) (f : ErrCode) : Host.Outcome State Fault Refusal :=
  .next ((s.enterFault f).answer .fault (f.code.setWidth 32))

/-- Begin a new attempt in phase `p` with a clean cursor, value, output and fault latch. There is no return from a
fault: START, DECODE, FRAME and LOAD leave it by this (43_control.md R175, 60_exceptions.md R198). -/
def State.beginAttempt (s : State) (p : Phase) : State :=
  { s with cur := 0, val := 0, out := [], err := .none, phase := p }

/-- Set the buffer window (10_state.md R21, R22). -/
def State.setWindow (s : State) (base len : Nat) : State := { s with base := base, len := len }

/-! ### Inputs -/

/-- Take the next input, one at a time and in the order of issue (43_control.md R183). -/
def State.takeInput (s : State) : Option (Input × State) :=
  match s.inbox with
  | [] => none
  | i :: rest => some (i, { s with inbox := rest })

/-- The host issues `i` as the next input. -/
def State.issue (s : State) (i : Input) : State := { s with inbox := i :: s.inbox }

end Sys2Proof.Machine
end

