-- ==== Sys2Proof/Machine/Flags.lean ====
section
/-!
DEFINITION. Derived conditions, not stored (10_state.md R30), and the STATUS byte (R31). No command sets a flag.
-/
namespace Sys2Proof.Machine

/-- `total_bits = 8 * LEN` (10_state.md R22). -/
def State.totalBits (s : State) : Nat := Config.byteWidth * s.len

/-- REM: the number of unread bits (10_state.md R30). -/
def State.rem (s : State) : Nat := s.totalBits - s.cur

/-- MORE: the loop condition, 6 or more bits remain (10_state.md R30, 41_alphabet_decoder.md R136). -/
def State.more (s : State) : Bool := decide (Config.codeWidth ≤ s.rem)

/-- OUTLEN: the number of characters in OUT (10_state.md R28). -/
def State.outLen (s : State) : Nat := s.out.length

/-- STATUS: bits 1 to 0 PHASE, 3 to 2 ERR, 4 MORE, 7 to 5 zero (10_state.md R31). -/
def State.status (s : State) : Byte := 0b000#3 ++ BitVec.ofBool s.more ++ s.err.code ++ s.phase.code

end Sys2Proof.Machine
end

