-- ==== Sys2Proof/Machine/Operands.lean ====
section
/-!
DEFINITION. Operand forms and the widths of data: every number is unsigned and zero-extended (00_scope.md R10).
-/
namespace Sys2Proof.Machine

/-- The field width an RDBITS operand names: "not biased, not scaled" (30_encoding.md R89). -/
def fieldWidth (w : Code) : Nat := w.toNat

/-- A natural number as a 32-bit value, for numbers below `2 ^ 32` (`zext_32`, 00_scope.md R10). -/
def valueOfNat (n : Nat) : Value := BitVec.ofNat 32 n

/-- A character as a 32-bit datum (`zext_32`). -/
def valueOfByte (b : Byte) : Value := b.setWidth 32

/-- A code as a 32-bit value (`zext_32`). -/
def valueOfCode (c : Code) : Value := c.setWidth 32

/-- DEC1's datum for a decoded character: the character in bits 7 to 0 and 1 in bit 8 (30_encoding.md R96). -/
def decodedDatum (ch : Byte) : Value := 0x100 ||| valueOfByte ch

/-- DECODE's datum: the number of characters (30_encoding.md R96); a free value where that number does not fit 32 bits
(DESIGN CHOICE, log 11, safe). -/
def countDatum (n : Nat) : Value := if n < 2 ^ 32 then valueOfNat n else Config.countBeyondDatum n

/-- The length field from its high byte (lower address) and low byte: big-endian, 16 bits (30_encoding.md R85). -/
def lengthField (hi lo : Byte) : BitVec 16 := (hi.setWidth 16 <<< 8) ||| lo.setWidth 16

end Sys2Proof.Machine
end

