-- ==== Sys2Proof/Machine/Reader.lean ====
section
/-!
DEFINITION. The bitstream reader: `read_bits` in closed form (40_bitstream_reader.md R111) and as the chunk algorithm
(R112), and RDBITS (R110).
-/
namespace Sys2Proof.Machine

/-- Stream bit `p`: bytes ascending, bit 7 of a byte first (20_memory.md R53, R54). Asked only for `p < 8 * length`. -/
def streamBit (buf : List Byte) (p : Nat) : Bool := (buf.getD (p / 8) 0).getLsbD (7 - p % 8)

/-- The value of the `w` stream bits from `c` on, the first the most significant: the sum of R111, summed from its
first term on (40_bitstream_reader.md R111). -/
def fieldValue (buf : List Byte) (c w : Nat) : Nat :=
  match w with
  | 0 => 0
  | k + 1 => 2 * fieldValue buf c k + (streamBit buf (c + k)).toNat

/-- `read_bits(buf, c, w)`: the value and the new cursor; no value for a width outside 1 to 32 or past the end
(40_bitstream_reader.md R111, R115, R116). -/
def readBits (buf : List Byte) (c w : Nat) : Option (Value × Nat) :=
  if Config.widthMin ≤ w ∧ w ≤ Config.widthMax ∧ c + w ≤ 8 * buf.length then
    some (valueOfNat (fieldValue buf c w), c + w)
  else none

/-- The loop of the chunk algorithm, given how many iterations it may take; `none` when they do not suffice
(40_bitstream_reader.md R112). -/
def chunkLoop (buf : List Byte) (fuel acc cur rem : Nat) : Option (Nat × Nat) :=
  match fuel with
  | 0 => if rem = 0 then some (acc, cur) else none
  | fuel + 1 =>
    if rem = 0 then some (acc, cur)
    else
      let idx := cur / 8
      let off := cur % 8
      let avail := 8 - off
      let n := min avail rem
      let sh := avail - n
      let chunk := ((buf.getD idx 0).toNat >>> sh) &&& ((1 <<< n) - 1)
      chunkLoop buf fuel ((acc <<< n) ||| chunk) (cur + n) (rem - n)

/-- `read_bits` by the chunk algorithm, in at most `iterations` chunks (40_bitstream_reader.md R112, R113). -/
def readBitsByChunks (buf : List Byte) (iterations c w : Nat) : Option (Nat × Nat) := chunkLoop buf iterations 0 c w

/-- RDBITS w, with its checks in order: the width, the phase, exhaustion (40_bitstream_reader.md R110). -/
def execRdbits (w : Code) (s : State) : Host.Outcome State Fault Refusal :=
  if ¬ Instr.legalWidth w then s.refuse
  else if s.phase ≠ .active then s.refuse
  else if s.cur + fieldWidth w > s.totalBits then s.raise .bufferExhausted
  else
    match s.buffer.bind fun buf => readBits buf s.cur (fieldWidth w) with
    | none => .fault .absentByte
    | some (v, c2) => State.succeed { s with val := v, cur := c2 } v

end Sys2Proof.Machine
end

