-- ==== Sys2Proof/Machine/Alphabet.lean ====
section
/-!
DEFINITION. The alphabet decoder: the character ROM (41_alphabet_decoder.md R130), LOOKUP (R133), one decode step and
DEC1 (R135), the decode pass and DECODE (R139, R140).
-/
namespace Sys2Proof.Machine

/-! ### The character ROM -/

/-- The 64 entries, index 0 first (41_alphabet_decoder.md R130; the byte column rests on 93_implementation_defined.md
G1, log 15). -/
def romTable : List Byte :=
  -- space to slash
  [0x20, 0x21, 0x22, 0x23, 0x24, 0x25, 0x26, 0x27, 0x28, 0x29, 0x2A, 0x2B, 0x2C, 0x2D, 0x2E, 0x2F] ++
  -- digits, colon to question mark
  [0x30, 0x31, 0x32, 0x33, 0x34, 0x35, 0x36, 0x37, 0x38, 0x39, 0x3A, 0x3B, 0x3C, 0x3D, 0x3E, 0x3F] ++
  -- commercial at, capital letters A to O
  [0x40, 0x41, 0x42, 0x43, 0x44, 0x45, 0x46, 0x47, 0x48, 0x49, 0x4A, 0x4B, 0x4C, 0x4D, 0x4E, 0x4F] ++
  -- capital letters P to Z, left bracket to underscore
  [0x50, 0x51, 0x52, 0x53, 0x54, 0x55, 0x56, 0x57, 0x58, 0x59, 0x5A, 0x5B, 0x5C, 0x5D, 0x5E, 0x5F]

/-- The ROM has exactly 64 entries (41_alphabet_decoder.md R131 (a)). -/
theorem romTable_length : romTable.length = 64 := rfl

/-- `rom(c)`, the 6-to-8 decoder: a direct index into the table (41_alphabet_decoder.md R130, R134). -/
def rom (c : Code) : Byte := romTable[c.toNat]'(romTable_length ▸ c.isLt)

/-- LOOKUP c: answer entry `c`; legal in every phase, touches no state (41_alphabet_decoder.md R133). -/
def execLookup (c : Code) (s : State) : Host.Outcome State Fault Refusal := s.succeed (valueOfByte (rom c))

/-! ### One decode step -/

/-- The code at cursor `c`: the 6-bit field there (30_encoding.md R86). -/
def codeAt (buf : List Byte) (c : Nat) : Code := BitVec.ofNat 6 (fieldValue buf c Config.codeWidth)

/-- A character is valid text when its bit 7 is clear (41_alphabet_decoder.md R138). -/
def validChar (ch : Byte) : Bool := !ch.getLsbD 7

/-- What a decode pass carries: the cursor, the last code read (0 before the first) and the output. -/
structure Pass where
  cur : Nat
  val : Value
  out : List Byte
  deriving DecidableEq, Repr

/-- A new pass (43_control.md R175). -/
def Pass.start : Pass := { cur := 0, val := 0, out := [] }

/-- 6 or more bits of `buf` remain at cursor `c` (41_alphabet_decoder.md R136). -/
def moreBits (buf : List Byte) (c : Nat) : Bool := decide (Config.codeWidth ≤ 8 * buf.length - c)

/-- Decode one code: append its character, record the code, advance by 6 (41_alphabet_decoder.md R135). -/
def Pass.advance (buf : List Byte) (p : Pass) : Pass :=
  { cur := p.cur + Config.codeWidth, val := valueOfCode (codeAt buf p.cur), out := p.out ++ [rom (codeAt buf p.cur)] }

/-- The state holds this pass in CUR, VAL and OUT. -/
def State.withPass (s : State) (p : Pass) : State := { s with cur := p.cur, val := p.val, out := p.out }

/-- The open pass of a state. -/
def State.pass (s : State) : Pass := { cur := s.cur, val := s.val, out := s.out }

/-- DEC1: refused outside a pass; decode one code while 6 bits remain, else end the pass (41_alphabet_decoder.md R135
to R138). -/
def execDec1 (s : State) : Host.Outcome State Fault Refusal :=
  if s.phase ≠ .active then s.refuse
  else if s.more then
    match s.buffer with
    | none => .fault .absentByte
    | some buf =>
      let ch := rom (codeAt buf s.cur)
      if validChar ch then (s.withPass (s.pass.advance buf)).succeed (decodedDatum ch)
      else s.raise .invalidText
  else State.succeed { s with phase := .done } 0

/-! ### The whole pass -/

/-- The decode loop, given how many iterations it may take (41_alphabet_decoder.md R139). -/
def decodeLoop (buf : List Byte) (fuel : Nat) (p : Pass) : Pass :=
  match fuel with
  | 0 => p
  | fuel + 1 => if moreBits buf p.cur then decodeLoop buf fuel (p.advance buf) else p

/-- The decode pass over a whole buffer. Each iteration consumes 6 bits, so one iteration per bit is more than the loop
can use (41_alphabet_decoder.md R143). -/
def decodePass (buf : List Byte) : Pass := decodeLoop buf (8 * buf.length) Pass.start

/-- `decode_string(buf)` (41_alphabet_decoder.md R139). -/
def decodeString (buf : List Byte) : List Byte := (decodePass buf).out

/-- DECODE: a whole pass over the current buffer, legal in every phase (41_alphabet_decoder.md R140); the text check is
kept as a guard (R138). -/
def execDecode (s : State) : Host.Outcome State Fault Refusal :=
  match s.buffer with
  | none => .fault .absentByte
  | some buf =>
    let p := decodePass buf
    if p.out.all validChar then ((s.beginAttempt .done).withPass p).succeed (countDatum p.out.length)
    else s.raise .invalidText

end Sys2Proof.Machine
end

