-- ==== Sys2Proof/Machine/Control.lean ====
section
/-!
DEFINITION. Pass control and the host interface: START (43_control.md R175), the host moves LOAD (R178) and READ (R179),
and the reset event (70_reset_and_hazards.md R220).
-/
namespace Sys2Proof.Machine

/-- START: open a pass over the current buffer; legal in every phase, never faults (43_control.md R175). -/
def execStart (s : State) : Host.Outcome State Fault Refusal := (s.beginAttempt .active).succeed 0

/-- LOAD: put a payload in the memory; refused in ACTIVE and above RAW_MAX bytes (43_control.md R178). The bytes of an
earlier, longer payload, which no longer exist, are dropped (log 7). -/
def hostLoad (bytes : List Byte) (s : State) : Host.Outcome State Fault Refusal :=
  if s.phase = .active then s.refuse
  else if bytes.length > s.rawMax then s.refuse
  else
    let loaded := { s with mem := Memory.ofBytes 0 bytes, rawLen := bytes.length }
    ((loaded.setWindow 0 bytes.length).beginAttempt .idle).succeed 0

/-- What READ observes: every register, STATUS, OUTLEN, OUT, and MEM below RAWLEN (43_control.md R179), and the
character ROM (10_state.md R36; log 18). -/
def State.view (s : State) : View where
  rawLen := s.rawLen
  base := s.base
  len := s.len
  cur := s.cur
  val := s.val
  phase := s.phase
  err := s.err
  status := s.status
  outLen := s.outLen
  out := s.out
  mem := s.mem.filter fun cell => cell.1 < s.rawLen
  rom := romTable

/-- READ: observe the block in any phase without changing anything (43_control.md R179). -/
def hostRead (s : State) : Host.Outcome State Fault Refusal := .next { s with reply := .view s.view }

/-- The reset event: every register at its power-on value, any pass aborted without a fault
(70_reset_and_hazards.md R220). The inputs not yet taken and RAW_MAX are no registers of the block and stay. -/
def platformReset (s : State) : Host.Outcome State Fault Refusal :=
  .next { State.reset with inbox := s.inbox, rawMax := s.rawMax }

end Sys2Proof.Machine
end

