-- ==== Sys2Proof/Machine/Framer.lean ====
section
/-!
DEFINITION. The payload framer: `extract_text_segment` (42_payload_framer.md R161) and FRAME (R160).
-/
namespace Sys2Proof.Machine

/-- `extract_text_segment(raw)`: the segment, or `none` for FramingError (42_payload_framer.md R161 to R164). -/
def extractTextSegment (raw : List Byte) : Option (List Byte) :=
  match raw[Config.lengthOffset]?, raw[Config.lengthOffset + 1]? with
  | some hi, some lo =>
    let n := (lengthField hi lo).toNat
    if Config.segmentOffset + n ≤ raw.length then some ((raw.drop Config.segmentOffset).take n) else none
  | _, _ => none

/-- FRAME, with its checks in order: the phase, a payload shorter than 14 bytes, a segment past its end
(42_payload_framer.md R160). -/
def execFrame (s : State) : Host.Outcome State Fault Refusal :=
  if s.phase = .active then s.refuse
  else if s.rawLen < Config.segmentOffset then s.raise .framing
  else
    match s.memRead Config.lengthOffset, s.memRead (Config.lengthOffset + 1) with
    | some hi, some lo =>
      let n := (lengthField hi lo).toNat
      if Config.segmentOffset + n > s.rawLen then s.raise .framing
      else ((s.setWindow Config.segmentOffset n).beginAttempt .idle).succeed (valueOfNat n)
    | _, _ => .fault .absentByte

end Sys2Proof.Machine
end

