-- ==== Sys2Proof/Machine/Dispatch.lean ====
section
/-!
DEFINITION. One arm per command, each a call of its meaning.
-/
namespace Sys2Proof.Machine

def exec (i : Instr) (s : State) : Host.Outcome State Fault Refusal :=
  match i with
  | .start => Sys2Proof.Machine.execStart s
  | .frame => Sys2Proof.Machine.execFrame s
  | .decode => Sys2Proof.Machine.execDecode s
  | .dec1 => Sys2Proof.Machine.execDec1 s
  | .rdbits w => Sys2Proof.Machine.execRdbits w s
  | .lookup c => Sys2Proof.Machine.execLookup c s

end Sys2Proof.Machine
end

