-- ==== Sys2Proof/Machine/Inputs.lean ====
section
/-!
DEFINITION. Carrying out one input: a command word, a host move, a reset (43_control.md R176; 70_reset_and_hazards.md
R220).
-/
namespace Sys2Proof.Machine

/-- A command word is decoded and executed; a reserved word is refused (30_encoding.md R91). -/
def runWord (word : Byte) (s : State) : Host.Outcome State Fault Refusal :=
  match decodeWord word with
  | .ok i => exec i s
  | .error _ => s.refuse

/-- One input, carried out on the state it was taken from. -/
def perform (input : Input) (s : State) : Host.Outcome State Fault Refusal :=
  match input with
  | .command word => runWord word s
  | .load bytes => hostLoad bytes s
  | .read => hostRead s
  | .reset => platformReset s

end Sys2Proof.Machine
end

