-- ==== Sys2Proof/Machine/Step.lean ====
section
/-!
DEFINITION. One step: take the next input and carry it out (00_scope.md R14, 43_control.md R176, R183).
-/
namespace Sys2Proof.Machine

/-- One step. With no input pending there is none: the block "has no step that is not the answer to a command"
(43_control.md R176; log 2). -/
def step (s : State) : Host.Outcome State Fault Refusal :=
  match s.takeInput with
  | none => .refused .noInput
  | some (input, t) => perform input t

/-- The host issues, as the next input, the command whose bits are `w` (numbered as the opcode table numbers them). -/
def State.withFetchWord (s : State) (nbits w : Nat) : State := s.issue (.command (tableByte nbits w))

end Sys2Proof.Machine
end

