-- ==== Sys2Proof/Safety.lean ====
section
/-!
DEFINITION. The terms statements use: the invariant of 10_state.md R37, the reasons for a refusal (43_control.md R177),
the phase table (R180), repeated commands, and the reference encoder of 95_test_vectors.md section 2.0.
-/
namespace Sys2Proof.Machine

/-- The invariant that holds after reset and after every step (10_state.md R37), with two clauses of the model's own:
RAW_MAX is at least 14 (00_scope.md R7), and MEM holds exactly the bytes below RAWLEN (R20). -/
structure State.Inv (s : State) : Prop where
  /-- RAW_MAX is at least 14 (00_scope.md R7). -/
  rawMax_least : 14 ≤ s.rawMax
  /-- (a) -/
  rawLen_le : s.rawLen ≤ s.rawMax
  /-- MEM lists the addresses 0 to RAWLEN - 1 in order, which is its canonical form. -/
  mem_addresses : s.mem.map Prod.fst = List.range s.rawLen
  /-- (b) -/
  base_values : s.base = 0 ∨ s.base = 14
  /-- (c) -/
  window : s.base + s.len ≤ s.rawLen
  /-- (d) -/
  cursor : s.cur ≤ 8 * s.len
  /-- (e) -/
  err_iff : s.err ≠ .none ↔ s.phase = .fault
  /-- (f) -/
  fault_out : s.phase = .fault → s.out = []
  /-- (g) -/
  idle_clean : s.phase = .idle → s.cur = 0 ∧ s.val = 0 ∧ s.out = []
  /-- (h) -/
  out_rom : ∀ ch ∈ s.out, ch ∈ romTable
  /-- (i) -/
  out_length : s.out.length ≤ s.cur / 6
  /-- (j) -/
  done_rest : s.phase = .done → 8 * s.len - s.cur < 6

/-- (i), second half: while no RDBITS is issued the cursor stands at six bits per character (10_state.md R37).
DESIGN CHOICE (log 17): phase FAULT is exempt. R37 claims the equality there too, but a FRAME that fails in DONE empties
OUT and keeps CUR (60_exceptions.md R196); safe, since less is claimed. -/
abbrev State.onGrid (s : State) : Prop := s.phase = .fault ∨ 6 * s.out.length = s.cur

/-- L, the length field at payload addresses 12 and 13 (30_encoding.md R85); asked only where both bytes exist. -/
def State.frameLength (s : State) : Nat := (lengthField ((s.memRead 12).getD 0) ((s.memRead 13).getD 0)).toNat

/-- FRAME's fault conditions (42_payload_framer.md R163, R164). -/
abbrev State.framingFails (s : State) : Prop := s.rawLen < 14 ∨ 14 + s.frameLength > s.rawLen

/-- RDBITS' fault condition for width `w` (40_bitstream_reader.md R115). -/
abbrev State.exhausts (s : State) (w : Code) : Prop := s.cur + w.toNat > 8 * s.len

/-- The closed list of reasons for refusing an input (43_control.md R177 (a) to (f)). -/
def State.refuses (s : State) (input : Input) : Prop :=
  match input with
  | .command word =>
    match decodeWord word with
    | .error _ => True
    | .ok (.rdbits w) => ¬ Instr.legalWidth w ∨ s.phase ≠ .active
    | .ok .dec1 => s.phase ≠ .active
    | .ok .frame => s.phase = .active
    | .ok .start => False
    | .ok .decode => False
    | .ok (.lookup _) => False
  | .load bytes => s.phase = .active ∨ bytes.length > s.rawMax
  | .read => False
  | .reset => False

/-- The phase table: the phase after a command (43_control.md R180). -/
def State.phaseAfter (s : State) (i : Instr) : Phase :=
  match i with
  | .start => .active
  | .decode => .done
  | .lookup _ => s.phase
  | .dec1 => if s.phase = .active then (if 6 ≤ 8 * s.len - s.cur then .active else .done) else s.phase
  | .rdbits w =>
    if s.phase = .active ∧ Instr.legalWidth w then (if s.exhausts w then .fault else .active) else s.phase
  | .frame => if s.phase = .active then .active else if s.framingFails then .fault else .idle

/-- The same command `k` times, as long as it answers a next state. -/
def execTimes (i : Instr) (k : Nat) (s : State) : Host.Outcome State Fault Refusal :=
  match k with
  | 0 => .next s
  | k + 1 =>
    match exec i s with
    | .next t => execTimes i k t
    | .fault f => .fault f
    | .refused r => .refused r

/-- The same outcome with another payload memory in the next state. -/
def outcomeWithMem (m : Memory) (o : Host.Outcome State Fault Refusal) : Host.Outcome State Fault Refusal :=
  match o with
  | .next t => .next { t with mem := m }
  | .fault f => .fault f
  | .refused r => .refused r

/-- Four codes as three bytes, most significant bit first (30_encoding.md R81). -/
def packGroup (c0 c1 c2 c3 : Code) : List Byte :=
  let bits := c0 ++ c1 ++ c2 ++ c3
  [bits.extractLsb' 16 8, bits.extractLsb' 8 8, bits.extractLsb' 0 8]

/-- The reference encoder (95_test_vectors.md section 2.0): the codes as 6-bit groups, the last byte filled with the
leading bits of `pad`. It is no part of the block. -/
def packCodes (pad : Code) (codes : List Code) : List Byte :=
  match codes with
  | [] => []
  | [c0] => (packGroup c0 pad pad pad).take 1
  | [c0, c1] => (packGroup c0 c1 pad pad).take 2
  | [c0, c1, c2] => packGroup c0 c1 c2 pad
  | c0 :: c1 :: c2 :: c3 :: rest => packGroup c0 c1 c2 c3 ++ packCodes pad rest

end Sys2Proof.Machine
end

