-- ==== Sys2Proof/Certificates/Slice0/Obligations.lean ====
section
/-!
DEFINITION. The statements for the provers, one obligation each, family by family.

In every statement about a command `exec`'s argument is the state after the input was taken from the inbox; the fields
`reply`, `inbox` and `rawMax` are the model's own (log 1, 3, 6), and `reply` holds the response of 30_encoding.md R96.
-/

open Sys2Proof Sys2Proof.Machine

/-! ### Encoding -/

/-- Words of 95_test_vectors.md section 2.6 decode as that table says (V-E7, V-E10: to RDBITS with an illegal operand,
log 9). -/
def Obligations.SampleWordsDecode : Prop :=
  decodeWord 0x00 = .ok .start ∧ decodeWord 0x01 = .ok .frame ∧ decodeWord 0x02 = .ok .decode ∧
  decodeWord 0x03 = .ok .dec1 ∧ decodeWord 0x46 = .ok (.rdbits 6) ∧ decodeWord 0x60 = .ok (.rdbits 32) ∧
  decodeWord 0xBF = .ok (.lookup 63) ∧ decodeWord 0x04 = .error (.reserved 0x04) ∧
  decodeWord 0x3F = .error (.reserved 0x3F) ∧ decodeWord 0xC0 = .error (.reserved 0xC0) ∧
  spellsCommand 0x40 = false ∧ spellsCommand 0x61 = false ∧ decode [] = .error .empty

/-- The opcode map of 30_encoding.md R88 by numeric ranges, for every one of the 256 words. That the words 0x40 and 0x61
to 0x7F decode to RDBITS, which then refuses, is the model's reading (log 9). -/
def Obligations.OpcodeMapAccountsForEveryWord : Prop :=
  ∀ word : Byte, decodeWord word =
    if word.toNat = 0x00 then .ok .start
    else if word.toNat = 0x01 then .ok .frame
    else if word.toNat = 0x02 then .ok .decode
    else if word.toNat = 0x03 then .ok .dec1
    else if word.toNat ≤ 0x3F then .error (.reserved word)
    else if word.toNat ≤ 0x7F then .ok (.rdbits (BitVec.ofNat 6 (word.toNat - 0x40)))
    else if word.toNat ≤ 0xBF then .ok (.lookup (BitVec.ofNat 6 (word.toNat - 0x80)))
    else .error (.reserved word)

/-- Decoding the encoded word of any command, legal operand or not, gives the command and leaves the bytes after it;
and bytes that decode are the command's word followed by the rest. That the RDBITS words with an illegal operand, 0x40
and 0x61 to 0x7F, decode at all is the model's reading (log 9): 30_encoding.md R91 says that they spell no command. -/
def Obligations.DecodeAndEncodeAgree : Prop :=
  (∀ (i : Instr) (rest : List Byte), decode (encode i :: rest) = .ok (i, rest)) ∧
  (∀ (bytes : List Byte) (i : Instr) (rest : List Byte),
    decode bytes = .ok (i, rest) → bytes = encode i :: rest)

/-- 30_encoding.md R91: the reserved words and the RDBITS words with an illegal operand are refused in every state,
100 of the 256 words spell a command, and the others are exactly those. -/
def Obligations.ReservedAndIllegalWordsAreRefused : Prop :=
  (∀ word : Byte, spellsCommand word = false ↔
    (0x04 ≤ word.toNat ∧ word.toNat ≤ 0x3F) ∨ 0xC0 ≤ word.toNat ∨ word.toNat = 0x40 ∨
      (0x61 ≤ word.toNat ∧ word.toNat ≤ 0x7F)) ∧
  ((List.range 256).filter fun n => spellsCommand (BitVec.ofNat 8 n)).length = 100 ∧
  (∀ (s : State) (word : Byte) (rest : List Input), s.inbox = .command word :: rest → spellsCommand word = false →
    step s = .next { s with inbox := rest, reply := .response .refused 0 })

/-! ### Steps -/

/-- When the next input is a command word that decodes, the step takes it from the inbox and is `exec` of the decoded
command; when the word is reserved, the step takes it and refuses (43_control.md R183, 30_encoding.md R91). -/
def Obligations.StepRunsTheDecodedCommand : Prop :=
  ∀ (s : State) (word : Byte) (rest : List Input), s.inbox = .command word :: rest →
    (∀ i : Instr, decodeWord word = .ok i → step s = exec i { s with inbox := rest }) ∧
    (∀ e : DecodeError, decodeWord word = .error e →
      step s = .next { s with inbox := rest, reply := .response .refused 0 })

/-- The model's step has no meaning exactly when no input is pending (43_control.md R176: no step that is not the
answer to a command; the model's choice, log 2); no command and no host move is left without one. -/
def Obligations.OnlyAnEmptyInboxHasNoStep : Prop :=
  ∀ s : State, (∃ r, step s = .refused r) ↔ s.inbox = []

/-- One step takes exactly the oldest input and never changes RAW_MAX (43_control.md R183, 00_scope.md R7; the fields
are the model's, log 1 and log 6). That a reset, too, keeps the inputs not yet taken and RAW_MAX is the model's choice
(log 14). -/
def Obligations.StepTakesOneInputInOrder : Prop :=
  ∀ s t : State, step s = .next t → (∃ input, s.inbox = input :: t.inbox) ∧ t.rawMax = s.rawMax

/-! ### Reset -/

/-- 70_reset_and_hazards.md R220: reset, asserted in any state, sets every register to its power-on value, and the
state after power-on has the same values. -/
def Obligations.ResetSetsEveryRegister : Prop :=
  (∀ (s : State) (rest : List Input), s.inbox = .reset :: rest →
    ∃ t, step s = .next t ∧ t.rawLen = 0 ∧ t.base = 0 ∧ t.len = 0 ∧ t.cur = 0 ∧ t.val = 0 ∧ t.phase = .idle ∧
      t.err = .none ∧ t.out = []) ∧
  State.reset.rawLen = 0 ∧ State.reset.base = 0 ∧ State.reset.len = 0 ∧ State.reset.cur = 0 ∧ State.reset.val = 0 ∧
  State.reset.phase = .idle ∧ State.reset.err = .none ∧ State.reset.out = []

/-- The invariant holds in the reset state (10_state.md R37; its RAW_MAX is the model's choice, log 6). -/
def Obligations.ResetSatisfiesTheInvariant : Prop := State.reset.Inv

/-- After a reset and before any LOAD no byte can be read: FRAME faults, DECODE gives the empty text, and after START
DEC1 ends the pass and every legal RDBITS faults (70_reset_and_hazards.md R221). -/
def Obligations.NothingIsReadBeforeALoad : Prop :=
  ∀ s : State, s.rawLen = 0 → s.base = 0 → s.len = 0 → s.cur = 0 → s.phase = .idle →
    (∀ a, s.memRead a = none) ∧
    exec .frame s =
      .next { s with phase := .fault, err := .framing, out := [], reply := .response .fault 1 } ∧
    exec .decode s =
      .next { s with cur := 0, val := 0, out := [], err := .none, phase := .done, reply := .response .ok 0 } ∧
    (∀ t, exec .start s = .next t →
      exec .dec1 t = .next { t with phase := .done, reply := .response .ok 0 } ∧
      ∀ w : Code, Instr.legalWidth w →
        exec (.rdbits w) t =
          .next { t with phase := .fault, err := .bufferExhausted, out := [], reply := .response .fault 2 })

/-! ### START and LOOKUP -/

/-- 43_control.md R175: START in every state, whatever the phase, writes CUR, VAL, OUT, ERR and PHASE, answers OK with
0, and touches nothing else. -/
def Obligations.StartOpensAPass : Prop :=
  encode .start = 0x00 ∧
  ∀ s : State, exec .start s =
    .next { s with cur := 0, val := 0, out := [], err := .none, phase := .active, reply := .response .ok 0 }

/-- 41_alphabet_decoder.md R133: LOOKUP in every state answers entry `c` of the ROM, zero-extended, and touches no
state. -/
def Obligations.LookupAnswersTheRomEntry : Prop :=
  (∀ c : Code, encode (.lookup c) = 0x80 ||| c.setWidth 8) ∧
  (∀ (s : State) (c : Code),
    exec (.lookup c) s = .next { s with reply := .response .ok ((rom c).setWidth 32) }) ∧
  rom 0 = 0x20 ∧ rom 63 = 0x5F ∧ rom 45 = 0x4D ∧ decodeWord 0xAD = .ok (.lookup 45)

/-- 41_alphabet_decoder.md R131, which the spec derives from its table: 64 entries, all distinct, entry `c` is
`c + 0x20`, bit 7 clear. -/
def Obligations.RomIsTheAsciiTable : Prop :=
  romTable.length = 64 ∧ romTable.Nodup ∧
  ∀ c : Code, romTable[c.toNat]? = some (rom c) ∧ (rom c).toNat = c.toNat + 0x20 ∧ (rom c).getLsbD 7 = false

/-! ### The reader -/

/-- 40_bitstream_reader.md R110: RDBITS with its checks in order and its effect. -/
def Obligations.RdbitsReadsOneField : Prop :=
  (∀ w : Code, encode (.rdbits w) = 0x40 ||| w.setWidth 8) ∧
  (∀ (s : State) (w : Code), (w.toNat = 0 ∨ w.toNat > 32) →
    exec (.rdbits w) s = .next { s with reply := .response .refused 0 }) ∧
  (∀ (s : State) (w : Code), 1 ≤ w.toNat → w.toNat ≤ 32 → s.phase ≠ .active →
    exec (.rdbits w) s = .next { s with reply := .response .refused 0 }) ∧
  (∀ (s : State) (w : Code), 1 ≤ w.toNat → w.toNat ≤ 32 → s.phase = .active → s.cur + w.toNat > 8 * s.len →
    exec (.rdbits w) s =
      .next { s with phase := .fault, err := .bufferExhausted, out := [], reply := .response .fault 2 }) ∧
  (∀ (s : State) (w : Code), s.Inv → 1 ≤ w.toNat → w.toNat ≤ 32 → s.phase = .active →
    s.cur + w.toNat ≤ 8 * s.len →
    ∃ buf v, s.buffer = some buf ∧ readBits buf s.cur w.toNat = some (v, s.cur + w.toNat) ∧
      exec (.rdbits w) s = .next { s with val := v, cur := s.cur + w.toNat, reply := .response .ok v }) ∧
  readBits [0xB4, 0xC0] 6 6 = some (12, 12)

/-- 30_encoding.md R86: the value of a field, bit by bit, and the 6-bit code as such a field. -/
def Obligations.FieldIsABigEndianBitString : Prop :=
  (∀ (buf : List Byte) (c w : Nat), 1 ≤ w → w ≤ 32 → c + w ≤ 8 * buf.length →
    ∃ v : Value, readBits buf c w = some (v, c + w) ∧
      (∀ k, k < w → v.getLsbD (w - 1 - k) = streamBit buf (c + k)) ∧
      (∀ j, w ≤ j → v.getLsbD j = false)) ∧
  (∀ (buf : List Byte) (c : Nat), c + 6 ≤ 8 * buf.length →
    readBits buf c 6 = some ((codeAt buf c).setWidth 32, c + 6))

/-- The order of stream bits: bytes ascending, bit 7 of each byte first (20_memory.md R53 and R54, whose formula the
spec derives). -/
def Obligations.StreamBitsRunFromBitSevenOfEachByte : Prop :=
  ∀ (buf : List Byte) (b : Byte) (i j : Nat), buf[i]? = some b → j < 8 →
    streamBit buf (8 * i + j) = b.getLsbD (7 - j)

/-- The chunk algorithm of 40_bitstream_reader.md R112 computes the closed form in at most 5 iterations, for every legal
width and cursor (R113, which the spec derives). -/
def Obligations.ChunkAlgorithmComputesTheField : Prop :=
  ∀ (buf : List Byte) (c w : Nat), 1 ≤ w → w ≤ 32 → c + w ≤ 8 * buf.length →
    ∃ (n : Nat) (v : Value), readBitsByChunks buf 5 c w = some (n, c + w) ∧
      readBits buf c w = some (v, c + w) ∧ n = v.toNat ∧ n < 2 ^ w

/-- Consecutive reads compose (20_memory.md R57, 40_bitstream_reader.md R117 (i), which the spec derives). -/
def Obligations.ConsecutiveReadsCompose : Prop :=
  ∀ (buf : List Byte) (c a b : Nat), 1 ≤ a → 1 ≤ b → a + b ≤ 32 → c + (a + b) ≤ 8 * buf.length →
    ∃ x y z : Value, readBits buf c a = some (x, c + a) ∧ readBits buf (c + a) b = some (y, c + a + b) ∧
      readBits buf c (a + b) = some (z, c + (a + b)) ∧ z = (x <<< b ||| y)

/-- `read_bits` has no value outside its precondition and one inside it (40_bitstream_reader.md section 4). -/
def Obligations.ReadBitsHasAValueExactlyInItsPrecondition : Prop :=
  ∀ (buf : List Byte) (c w : Nat), (readBits buf c w).isSome ↔ (1 ≤ w ∧ w ≤ 32 ∧ c + w ≤ 8 * buf.length)

/-! ### The alphabet decoder -/

/-- 41_alphabet_decoder.md R135: DEC1 with its check and both its outcomes. -/
def Obligations.Dec1DecodesOneCodeOrEndsThePass : Prop :=
  encode .dec1 = 0x03 ∧
  (∀ s : State, s.phase ≠ .active → exec .dec1 s = .next { s with reply := .response .refused 0 }) ∧
  (∀ s : State, s.Inv → s.phase = .active → 6 ≤ 8 * s.len - s.cur →
    ∃ buf v code ch, s.buffer = some buf ∧ readBits buf s.cur 6 = some (v, s.cur + 6) ∧
      v = BitVec.setWidth 32 (code : Code) ∧ ch = rom code ∧ ch.getLsbD 7 = false ∧
      exec .dec1 s = .next { s with
        out := s.out ++ [ch], val := v, cur := s.cur + 6,
        reply := .response .ok (0x100 ||| ch.setWidth 32) }) ∧
  (∀ s : State, s.phase = .active → 8 * s.len - s.cur < 6 →
    exec .dec1 s = .next { s with phase := .done, reply := .response .ok 0 }) ∧
  readBits [0xFC] 0 6 = some (63, 6) ∧ rom 63 = 0x5F

/-- 41_alphabet_decoder.md R139: `decode_string` has `floor(8 * n / 6)` characters, character `k` being the ROM entry of
stream bits `6k` to `6k + 5`. -/
def Obligations.DecodeStringClosedForm : Prop :=
  ∀ buf : List Byte, (decodeString buf).length = 8 * buf.length / 6 ∧
    ∀ k, k < 8 * buf.length / 6 → (decodeString buf)[k]? = some (rom (codeAt buf (6 * k)))

/-- The laws of a full pass from cursor 0: number of characters, final cursor, discarded bits, last code
(41_alphabet_decoder.md R141 and R140, the former derived by the spec). -/
def Obligations.FullPassLaws : Prop :=
  ∀ buf : List Byte, ∃ m, m = 8 * buf.length / 6 ∧ m = 4 * buf.length / 3 ∧ (decodePass buf).out.length = m ∧
    (decodePass buf).cur = 6 * m ∧ 8 * buf.length - (decodePass buf).cur = 2 * (buf.length % 3) ∧
    (decodePass buf).val = if m = 0 then 0 else (codeAt buf (6 * (m - 1))).setWidth 32

/-- DECODE in every phase runs the whole pass over the window and ends in DONE (41_alphabet_decoder.md R140). The datum
is the count `m`; that a count of `2 ^ 32` or more has a free datum is the model's choice (log 11). -/
def Obligations.DecodeRunsTheWholePass : Prop :=
  encode .decode = 0x02 ∧
  ∀ s : State, s.Inv → ∃ buf m, s.buffer = some buf ∧ m = 8 * s.len / 6 ∧ (decodeString buf).length = m ∧
    exec .decode s = .next { s with
      out := decodeString buf, cur := 6 * m,
      val := (if m = 0 then 0 else (codeAt buf (6 * (m - 1))).setWidth 32),
      err := .none, phase := .done,
      reply := .response .ok (if m < 2 ^ 32 then BitVec.ofNat 32 m else Config.countBeyondDatum m) }

/-- DECODE is START followed by DEC1 repeated until a DEC1 ends the pass: `m` decoding steps and one ending step, the
same end state but for the answer (41_alphabet_decoder.md R140, which the spec derives). -/
def Obligations.DecodeIsStartThenDec1UntilDone : Prop :=
  ∀ s : State, s.Inv → ∃ t u v, exec .decode s = .next t ∧ exec .start s = .next u ∧
    (∀ k, k ≤ 8 * s.len / 6 → ∃ x, execTimes .dec1 k u = .next x ∧ x.phase = .active) ∧
    execTimes .dec1 (8 * s.len / 6 + 1) u = .next v ∧ v.phase = .done ∧ v = { t with reply := v.reply }

/-- The decoded text depends on no padding bit: two buffers of one length that agree on the stream bits of complete
codes decode alike (41_alphabet_decoder.md R141 (f), which the spec derives). -/
def Obligations.PaddingBitsDoNotMatter : Prop :=
  ∀ buf buf' : List Byte, buf.length = buf'.length →
    (∀ p, p < 6 * (8 * buf.length / 6) → streamBit buf p = streamBit buf' p) → decodePass buf = decodePass buf'

/-- Four codes fill three bytes, laid out as 30_encoding.md R81 says, which the spec derives. -/
def Obligations.FourCodesFillThreeBytes : Prop :=
  ∀ (buf : List Byte) (g : Nat) (b0 b1 b2 : Byte),
    buf[3 * g]? = some b0 → buf[3 * g + 1]? = some b1 → buf[3 * g + 2]? = some b2 →
    (codeAt buf (6 * (4 * g))).toNat = b0.toNat >>> 2 ∧
    (codeAt buf (6 * (4 * g + 1))).toNat = ((b0.toNat &&& 3) <<< 4 ||| b1.toNat >>> 4) ∧
    (codeAt buf (6 * (4 * g + 2))).toNat = ((b1.toNat &&& 15) <<< 2 ||| b2.toNat >>> 6) ∧
    (codeAt buf (6 * (4 * g + 3))).toNat = b2.toNat &&& 63

/-- Decoding what the reference encoder packed gives the text back exactly when the number of characters is not 3
modulo 4; otherwise the six padding bits come back as one more character (70_reset_and_hazards.md R228, which the spec
derives). -/
def Obligations.PackedTextDecodesToItself : Prop :=
  ∀ (pad : Code) (codes : List Code),
    decodeString (packCodes pad codes) = codes.map rom ++ (if codes.length % 4 = 3 then [rom pad] else [])

/-! ### The framer -/

/-- The length field is big-endian and nothing carries (30_encoding.md R85, 42_payload_framer.md R162). -/
def Obligations.LengthFieldIsBigEndian : Prop :=
  ∀ hi lo : Byte, (lengthField hi lo).toNat = 256 * hi.toNat + lo.toNat ∧
    (lengthField hi lo).extractLsb' 8 8 = hi ∧ (lengthField hi lo).extractLsb' 0 8 = lo

/-- 42_payload_framer.md R160: FRAME with its checks in order, its fault and its effect. -/
def Obligations.FrameSetsTheWindow : Prop :=
  encode .frame = 0x01 ∧
  (∀ s : State, s.phase = .active → exec .frame s = .next { s with reply := .response .refused 0 }) ∧
  (∀ s : State, s.phase ≠ .active → s.rawLen < 14 →
    exec .frame s =
      .next { s with phase := .fault, err := .framing, out := [], reply := .response .fault 1 }) ∧
  (∀ s : State, s.Inv → s.phase ≠ .active → 14 ≤ s.rawLen →
    ∃ hi lo n, s.memRead 12 = some hi ∧ s.memRead 13 = some lo ∧ n = 256 * hi.toNat + lo.toNat ∧
      (14 + n > s.rawLen → exec .frame s =
        .next { s with phase := .fault, err := .framing, out := [], reply := .response .fault 1 }) ∧
      (14 + n ≤ s.rawLen → exec .frame s = .next { s with
        base := 14, len := n, cur := 0, val := 0, out := [], err := .none, phase := .idle,
        reply := .response .ok (BitVec.ofNat 32 n) }))

/-- FRAME computes `extract_text_segment`: after it the buffer is the extracted segment, and it faults exactly when the
function fails (42_payload_framer.md R160 and R161). -/
def Obligations.FrameComputesExtractTextSegment : Prop :=
  ∀ s : State, s.Inv → s.phase ≠ .active → ∃ raw, s.payload = some raw ∧
    match extractTextSegment raw with
    | some seg => ∃ t, exec .frame s = .next t ∧ t.phase = .idle ∧ t.buffer = some seg ∧ t.len = seg.length
    | none => exec .frame s =
        .next { s with phase := .fault, err := .framing, out := [], reply := .response .fault 1 }

/-- A second FRAME finds the same window: FRAME is idempotent (42_payload_framer.md R166 (f), which the spec
derives). -/
def Obligations.FrameTwiceSetsTheSameWindow : Prop :=
  ∀ s t : State, s.phase ≠ .active → exec .frame s = .next t → exec .frame t = .next t

/-! ### The host moves -/

/-- LOAD with its checks in order and its effect; after it exactly the loaded bytes can be read (43_control.md R178).
That an accepted LOAD is answered OK with datum 0 is the model's reading (log 4): R178 gives it no answer. -/
def Obligations.LoadPutsThePayloadInMemory : Prop :=
  ∀ (s : State) (bytes : List Byte) (rest : List Input), s.inbox = .load bytes :: rest →
    (s.phase = .active ∨ bytes.length > s.rawMax →
      step s = .next { s with inbox := rest, reply := .response .refused 0 }) ∧
    (s.phase ≠ .active → bytes.length ≤ s.rawMax →
      ∃ t, step s = .next t ∧ (∀ a, t.memRead a = bytes[a]?) ∧ t.payload = some bytes ∧ t.buffer = some bytes ∧
        t = { s with
          mem := t.mem, rawLen := bytes.length, base := 0, len := bytes.length, cur := 0, val := 0, out := [],
          err := .none, phase := .idle, inbox := rest, reply := .response .ok 0 })

/-- READ in every phase changes nothing but the answer, which shows every register, STATUS, OUTLEN, OUT, every byte of
MEM below RAWLEN (43_control.md R179) and the character ROM (10_state.md R36). That one READ shows all of them at once
and that the ROM is among them are the model's (log 5, log 18). -/
def Obligations.ReadObservesAndChangesNothing : Prop :=
  ∀ (s : State) (rest : List Input), s.inbox = .read :: rest →
    ∃ v : View, step s = .next { s with inbox := rest, reply := .view v } ∧
      v.rawLen = s.rawLen ∧ v.base = s.base ∧ v.len = s.len ∧ v.cur = s.cur ∧ v.val = s.val ∧ v.phase = s.phase ∧
      v.err = s.err ∧ v.status = s.status ∧ v.outLen = s.out.length ∧ v.out = s.out ∧ v.rom.length = 64 ∧
      (∀ c : Code, v.rom[c.toNat]? = some (rom c)) ∧
      (s.Inv → ∀ a b, (a, b) ∈ v.mem ↔ s.memRead a = some b)

/-- The STATUS byte gathers PHASE, ERR and MORE, with zeros above (10_state.md R31, R30). -/
def Obligations.StatusByteLayout : Prop :=
  ∀ s : State, s.status.extractLsb' 0 2 = s.phase.code ∧ s.status.extractLsb' 2 2 = s.err.code ∧
    (s.status.getLsbD 4 = true ↔ 6 ≤ 8 * s.len - s.cur) ∧ s.status.extractLsb' 5 3 = 0

/-! ### Faults, refusals, phases -/

/-- 60_exceptions.md R196: a command answers FAULT only by the fault entry: PHASE, ERR and OUT are written, the datum is
the code, and every other register and all of memory keep the values they had before the command. -/
def Obligations.FaultEntryIsPrecise : Prop :=
  (∀ (s : State) (f : ErrCode), s.raise f =
    .next { s with phase := .fault, err := f, out := [], reply := .response .fault (f.code.setWidth 32) }) ∧
  (∀ (i : Instr) (s t : State) (d : Value), exec i s = .next t → t.reply = .response .fault d →
    ∃ f : ErrCode, f ≠ .none ∧ d = f.code.setWidth 32 ∧
      t = { s with phase := .fault, err := f, out := [], reply := .response .fault d })

/-- Which command raises which fault: Framing only FRAME, BufferExhausted only RDBITS, InvalidText none; no other
command answers FAULT (60_exceptions.md R190 to R193). -/
def Obligations.EachFaultHasOneCommand : Prop :=
  ∀ (i : Instr) (s t : State) (d : Value), exec i s = .next t → t.reply = .response .fault d →
    (i = .frame ∧ t.err = .framing) ∨ (∃ w, i = .rdbits w ∧ t.err = .bufferExhausted)

/-- 43_control.md R177: an input is refused for exactly the listed reasons, and a refusal changes no state but the
answer. -/
def Obligations.RefusalHasAReasonAndChangesNothing : Prop :=
  ∀ (s : State) (input : Input) (rest : List Input), s.inbox = input :: rest →
    (s.refuses input → step s = .next { s with inbox := rest, reply := .response .refused 0 }) ∧
    (¬ s.refuses input → ∀ t d, step s = .next t → t.reply ≠ .response .refused d)

/-- 43_control.md R180: the phase table, for every input: the next phase, and which entries are refused. -/
def Obligations.PhaseTable : Prop :=
  ∀ (s : State) (input : Input) (rest : List Input), s.Inv → s.inbox = input :: rest →
    ∃ t, step s = .next t ∧ (t.reply = .response .refused 0 ↔ s.refuses input) ∧
      match input with
      | .command word =>
        (match decodeWord word with
          | .ok i => t.phase = s.phaseAfter i
          | .error _ => t.phase = s.phase)
      | .load bytes => t.phase = if s.phase = .active ∨ bytes.length > s.rawMax then s.phase else .idle
      | .read => t.phase = s.phase
      | .reset => t.phase = .idle

/-- No step latches InvalidText: the text check is dead because no ROM entry has bit 7 set (41_alphabet_decoder.md
section 3, 60_exceptions.md section 1). -/
def Obligations.InvalidTextIsNeverLatched : Prop :=
  ∀ s t : State, step s = .next t → s.err ≠ .invalidText → t.err ≠ .invalidText

/-- 60_exceptions.md R198: from FAULT each of START, DECODE, FRAME, LOAD and reset is accepted, and each but a failing
FRAME clears the fault; and no other input leaves FAULT: not LOOKUP, RDBITS, DEC1, READ nor anything refused. -/
def Obligations.FaultIsLeftByANewAttempt : Prop :=
  ∀ s : State, s.Inv → s.phase = .fault →
    (∃ t, exec .start s = .next t ∧ t.phase = .active ∧ t.err = .none ∧ t.base = s.base ∧ t.len = s.len) ∧
    (∃ t, exec .decode s = .next t ∧ t.phase = .done ∧ t.err = .none ∧ t.base = s.base ∧ t.len = s.len) ∧
    (¬ s.framingFails → ∃ t, exec .frame s = .next t ∧ t.phase = .idle ∧ t.err = .none) ∧
    (s.framingFails → ∃ t, exec .frame s = .next t ∧ t.phase = .fault ∧ t.err = .framing) ∧
    (∀ bytes : List Byte, bytes.length ≤ s.rawMax →
      ∃ t, hostLoad bytes s = .next t ∧ t.phase = .idle ∧ t.err = .none) ∧
    (∃ t, platformReset s = .next t ∧ t.phase = .idle ∧ t.err = .none) ∧
    (∀ input rest t, s.inbox = input :: rest → step s = .next t → t.phase ≠ .fault →
      input = .command (encode .start) ∨ input = .command (encode .decode) ∨
      (input = .command (encode .frame) ∧ ¬ s.framingFails) ∨
      (∃ bytes, input = .load bytes ∧ bytes.length ≤ s.rawMax) ∨ input = .reset)

/-- 60_exceptions.md R199: in FAULT RDBITS and DEC1 are refused and LOOKUP and READ work, so none of them changes a
register; DECODE clears ERR, and a FRAME that fails rewrites ERR to Framing. -/
def Obligations.FaultedAttemptStandsStill : Prop :=
  ∀ s : State, s.phase = .fault →
    exec .dec1 s = .next { s with reply := .response .refused 0 } ∧
    (∀ w, exec (.rdbits w) s = .next { s with reply := .response .refused 0 }) ∧
    (∀ c, exec (.lookup c) s = .next { s with reply := .response .ok ((rom c).setWidth 32) }) ∧
    hostRead s = .next { s with reply := .view s.view } ∧
    (∀ t, exec .decode s = .next t → t.err = .none) ∧
    (s.Inv → s.framingFails →
      exec .frame s = .next { s with err := .framing, reply := .response .fault 1 })

/-! ### Frames and invariants -/

/-- What each command leaves unchanged when it answers a next state (10_state.md R36): MEM and RAWLEN always, and every
byte of memory reads as before, no command storing any; BASE and LEN but by FRAME; for the others their table rows. -/
def Obligations.CommandsLeaveTheRestUnchanged : Prop :=
  ∀ (i : Instr) (s t : State), exec i s = .next t →
    (∀ a, t.memRead a = s.memRead a) ∧ t.mem = s.mem ∧ t.rawLen = s.rawLen ∧ t.inbox = s.inbox ∧
    t.rawMax = s.rawMax ∧ (i ≠ .frame → t.base = s.base ∧ t.len = s.len) ∧
    match i with
    | .start => True
    | .decode => True
    | .frame => t.phase = .fault → t.base = s.base ∧ t.len = s.len ∧ t.cur = s.cur ∧ t.val = s.val
    | .lookup _ => t.cur = s.cur ∧ t.val = s.val ∧ t.phase = s.phase ∧ t.err = s.err ∧ t.out = s.out
    | .rdbits _ =>
      (t.phase = s.phase ∧ t.err = s.err ∧ t.out = s.out) ∨
        (t.phase = .fault ∧ t.cur = s.cur ∧ t.val = s.val)
    | .dec1 =>
      t.err = s.err ∧ ((t.cur = s.cur ∧ t.val = s.val ∧ t.out = s.out) ∨ t.phase = s.phase)

/-- Commands depend on MEM only through the length field and the current window: changing any other byte, the opaque
header or the bytes after the segment among them, changes no answer and no register (42_payload_framer.md R165,
30_encoding.md R92). -/
def Obligations.CommandsReadOnlyLengthFieldAndWindow : Prop :=
  ∀ (i : Instr) (s : State) (m : Memory),
    (∀ a, (a = 12 ∨ a = 13 ∨ (s.base ≤ a ∧ a < s.base + s.len)) → { s with mem := m }.memRead a = s.memRead a) →
    exec i { s with mem := m } = outcomeWithMem m (exec i s)

/-- Inside a pass the cursor never decreases and moves only by the width read: by `w` for RDBITS, by 6 or 0 for DEC1;
the other commands leave it or set it to 0 or to the end of a full pass (10_state.md R24, 43_control.md R185). -/
def Obligations.CursorMovesByTheWidthRead : Prop :=
  ∀ (i : Instr) (s t : State), exec i s = .next t →
    match i with
    | .rdbits w => t.cur = s.cur ∨ (t.reply = .response .ok t.val ∧ t.cur = s.cur + w.toNat)
    | .dec1 => (t.cur = s.cur ∧ t.out = s.out) ∨ (t.cur = s.cur + 6 ∧ t.out.length = s.out.length + 1)
    | .lookup _ => t.cur = s.cur
    | .start => t.cur = 0
    | .frame => t.cur = 0 ∨ (t.cur = s.cur ∧ (t.phase = .fault ∨ t.phase = .active))
    | .decode => t.cur = 6 * (8 * s.len / 6)

/-- Every step keeps the invariant of 10_state.md R37, which the spec derives. -/
def Obligations.EveryStepKeepsTheInvariant : Prop :=
  ∀ s t : State, s.Inv → step s = .next t → t.Inv

/-- From every state of the invariant every pending input has a next state: no access is out of range, no command hangs
or stops the machine (20_memory.md R63, 70_reset_and_hazards.md R235, both derived by the spec). -/
def Obligations.EveryInputIsAnswered : Prop :=
  ∀ s : State, s.Inv → s.inbox ≠ [] → ∃ t, step s = .next t

/-- While no RDBITS is issued the cursor stands at six bits per character (10_state.md R37 (i), which the spec
derives). That phase FAULT is exempt is the model's choice (log 17). -/
def Obligations.CodeGridIsKeptWithoutRdbits : Prop :=
  ∀ s t : State, s.onGrid → step s = .next t → (∀ word rest w, s.inbox = .command word :: rest →
    decodeWord word ≠ .ok (.rdbits w)) → t.onGrid

/-- DECODE twice over one buffer gives the same state both times (41_alphabet_decoder.md R142 (i), which the spec
derives). -/
def Obligations.DecodeTwiceGivesTheSame : Prop :=
  ∀ s t : State, exec .decode s = .next t → exec .decode t = .next t

/-- The whole pipeline: LOAD of a payload, FRAME, DECODE ends in DONE with the text of the extracted segment, or, when
the framing fails, FRAME faults and there is no text (43_control.md R181). -/
def Obligations.PipelineDecodesTheTextSegment : Prop :=
  ∀ (s : State) (raw : List Byte), s.phase ≠ .active → raw.length ≤ s.rawMax →
    ∃ t, hostLoad raw s = .next t ∧
      match extractTextSegment raw with
      | some seg => ∃ u v, exec .frame t = .next u ∧ exec .decode u = .next v ∧ v.phase = .done ∧
          v.err = .none ∧ v.out = decodeString seg
      | none => ∃ u, exec .frame t = .next u ∧ u.phase = .fault ∧ u.err = .framing ∧ u.out = []
end

