-- ==== Sys2Proof/Laws/State.lean ====
section
/-!
SUPPORT. One lemma per field per update of the state, so that no later proof unfolds an update.
-/
namespace Sys2Proof.Machine

/-! ### answer -/

@[simp] theorem State.answer_mem (s : State) (r : Resp) (d : Value) : (s.answer r d).mem = s.mem := rfl
@[simp] theorem State.answer_rawLen (s : State) (r : Resp) (d : Value) : (s.answer r d).rawLen = s.rawLen := rfl
@[simp] theorem State.answer_base (s : State) (r : Resp) (d : Value) : (s.answer r d).base = s.base := rfl
@[simp] theorem State.answer_len (s : State) (r : Resp) (d : Value) : (s.answer r d).len = s.len := rfl
@[simp] theorem State.answer_cur (s : State) (r : Resp) (d : Value) : (s.answer r d).cur = s.cur := rfl
@[simp] theorem State.answer_val (s : State) (r : Resp) (d : Value) : (s.answer r d).val = s.val := rfl
@[simp] theorem State.answer_phase (s : State) (r : Resp) (d : Value) : (s.answer r d).phase = s.phase := rfl
@[simp] theorem State.answer_err (s : State) (r : Resp) (d : Value) : (s.answer r d).err = s.err := rfl
@[simp] theorem State.answer_out (s : State) (r : Resp) (d : Value) : (s.answer r d).out = s.out := rfl
@[simp] theorem State.answer_reply (s : State) (r : Resp) (d : Value) : (s.answer r d).reply = .response r d := rfl
@[simp] theorem State.answer_inbox (s : State) (r : Resp) (d : Value) : (s.answer r d).inbox = s.inbox := rfl
@[simp] theorem State.answer_rawMax (s : State) (r : Resp) (d : Value) : (s.answer r d).rawMax = s.rawMax := rfl

/-! ### enterFault -/

@[simp] theorem State.enterFault_mem (s : State) (f : ErrCode) : (s.enterFault f).mem = s.mem := rfl
@[simp] theorem State.enterFault_rawLen (s : State) (f : ErrCode) : (s.enterFault f).rawLen = s.rawLen := rfl
@[simp] theorem State.enterFault_base (s : State) (f : ErrCode) : (s.enterFault f).base = s.base := rfl
@[simp] theorem State.enterFault_len (s : State) (f : ErrCode) : (s.enterFault f).len = s.len := rfl
@[simp] theorem State.enterFault_cur (s : State) (f : ErrCode) : (s.enterFault f).cur = s.cur := rfl
@[simp] theorem State.enterFault_val (s : State) (f : ErrCode) : (s.enterFault f).val = s.val := rfl
@[simp] theorem State.enterFault_phase (s : State) (f : ErrCode) : (s.enterFault f).phase = .fault := rfl
@[simp] theorem State.enterFault_err (s : State) (f : ErrCode) : (s.enterFault f).err = f := rfl
@[simp] theorem State.enterFault_out (s : State) (f : ErrCode) : (s.enterFault f).out = [] := rfl
@[simp] theorem State.enterFault_reply (s : State) (f : ErrCode) : (s.enterFault f).reply = s.reply := rfl
@[simp] theorem State.enterFault_inbox (s : State) (f : ErrCode) : (s.enterFault f).inbox = s.inbox := rfl
@[simp] theorem State.enterFault_rawMax (s : State) (f : ErrCode) : (s.enterFault f).rawMax = s.rawMax := rfl

/-! ### beginAttempt -/

@[simp] theorem State.beginAttempt_mem (s : State) (p : Phase) : (s.beginAttempt p).mem = s.mem := rfl
@[simp] theorem State.beginAttempt_rawLen (s : State) (p : Phase) : (s.beginAttempt p).rawLen = s.rawLen := rfl
@[simp] theorem State.beginAttempt_base (s : State) (p : Phase) : (s.beginAttempt p).base = s.base := rfl
@[simp] theorem State.beginAttempt_len (s : State) (p : Phase) : (s.beginAttempt p).len = s.len := rfl
@[simp] theorem State.beginAttempt_cur (s : State) (p : Phase) : (s.beginAttempt p).cur = 0 := rfl
@[simp] theorem State.beginAttempt_val (s : State) (p : Phase) : (s.beginAttempt p).val = 0 := rfl
@[simp] theorem State.beginAttempt_phase (s : State) (p : Phase) : (s.beginAttempt p).phase = p := rfl
@[simp] theorem State.beginAttempt_err (s : State) (p : Phase) : (s.beginAttempt p).err = .none := rfl
@[simp] theorem State.beginAttempt_out (s : State) (p : Phase) : (s.beginAttempt p).out = [] := rfl
@[simp] theorem State.beginAttempt_reply (s : State) (p : Phase) : (s.beginAttempt p).reply = s.reply := rfl
@[simp] theorem State.beginAttempt_inbox (s : State) (p : Phase) : (s.beginAttempt p).inbox = s.inbox := rfl
@[simp] theorem State.beginAttempt_rawMax (s : State) (p : Phase) : (s.beginAttempt p).rawMax = s.rawMax := rfl

/-! ### setWindow -/

@[simp] theorem State.setWindow_mem (s : State) (b n : Nat) : (s.setWindow b n).mem = s.mem := rfl
@[simp] theorem State.setWindow_rawLen (s : State) (b n : Nat) : (s.setWindow b n).rawLen = s.rawLen := rfl
@[simp] theorem State.setWindow_base (s : State) (b n : Nat) : (s.setWindow b n).base = b := rfl
@[simp] theorem State.setWindow_len (s : State) (b n : Nat) : (s.setWindow b n).len = n := rfl
@[simp] theorem State.setWindow_cur (s : State) (b n : Nat) : (s.setWindow b n).cur = s.cur := rfl
@[simp] theorem State.setWindow_val (s : State) (b n : Nat) : (s.setWindow b n).val = s.val := rfl
@[simp] theorem State.setWindow_phase (s : State) (b n : Nat) : (s.setWindow b n).phase = s.phase := rfl
@[simp] theorem State.setWindow_err (s : State) (b n : Nat) : (s.setWindow b n).err = s.err := rfl
@[simp] theorem State.setWindow_out (s : State) (b n : Nat) : (s.setWindow b n).out = s.out := rfl
@[simp] theorem State.setWindow_reply (s : State) (b n : Nat) : (s.setWindow b n).reply = s.reply := rfl
@[simp] theorem State.setWindow_inbox (s : State) (b n : Nat) : (s.setWindow b n).inbox = s.inbox := rfl
@[simp] theorem State.setWindow_rawMax (s : State) (b n : Nat) : (s.setWindow b n).rawMax = s.rawMax := rfl

/-! ### withPass -/

@[simp] theorem State.withPass_mem (s : State) (p : Pass) : (s.withPass p).mem = s.mem := rfl
@[simp] theorem State.withPass_rawLen (s : State) (p : Pass) : (s.withPass p).rawLen = s.rawLen := rfl
@[simp] theorem State.withPass_base (s : State) (p : Pass) : (s.withPass p).base = s.base := rfl
@[simp] theorem State.withPass_len (s : State) (p : Pass) : (s.withPass p).len = s.len := rfl
@[simp] theorem State.withPass_cur (s : State) (p : Pass) : (s.withPass p).cur = p.cur := rfl
@[simp] theorem State.withPass_val (s : State) (p : Pass) : (s.withPass p).val = p.val := rfl
@[simp] theorem State.withPass_phase (s : State) (p : Pass) : (s.withPass p).phase = s.phase := rfl
@[simp] theorem State.withPass_err (s : State) (p : Pass) : (s.withPass p).err = s.err := rfl
@[simp] theorem State.withPass_out (s : State) (p : Pass) : (s.withPass p).out = p.out := rfl
@[simp] theorem State.withPass_reply (s : State) (p : Pass) : (s.withPass p).reply = s.reply := rfl
@[simp] theorem State.withPass_inbox (s : State) (p : Pass) : (s.withPass p).inbox = s.inbox := rfl
@[simp] theorem State.withPass_rawMax (s : State) (p : Pass) : (s.withPass p).rawMax = s.rawMax := rfl

/-! ### issue -/

@[simp] theorem State.issue_mem (s : State) (i : Input) : (s.issue i).mem = s.mem := rfl
@[simp] theorem State.issue_rawLen (s : State) (i : Input) : (s.issue i).rawLen = s.rawLen := rfl
@[simp] theorem State.issue_base (s : State) (i : Input) : (s.issue i).base = s.base := rfl
@[simp] theorem State.issue_len (s : State) (i : Input) : (s.issue i).len = s.len := rfl
@[simp] theorem State.issue_cur (s : State) (i : Input) : (s.issue i).cur = s.cur := rfl
@[simp] theorem State.issue_val (s : State) (i : Input) : (s.issue i).val = s.val := rfl
@[simp] theorem State.issue_phase (s : State) (i : Input) : (s.issue i).phase = s.phase := rfl
@[simp] theorem State.issue_err (s : State) (i : Input) : (s.issue i).err = s.err := rfl
@[simp] theorem State.issue_out (s : State) (i : Input) : (s.issue i).out = s.out := rfl
@[simp] theorem State.issue_reply (s : State) (i : Input) : (s.issue i).reply = s.reply := rfl
@[simp] theorem State.issue_inbox (s : State) (i : Input) : (s.issue i).inbox = i :: s.inbox := rfl
@[simp] theorem State.issue_rawMax (s : State) (i : Input) : (s.issue i).rawMax = s.rawMax := rfl

/-! ### One decode step -/

@[simp] theorem Pass.advance_cur (buf : List Byte) (p : Pass) : (p.advance buf).cur = p.cur + 6 := rfl
@[simp] theorem Pass.advance_val (buf : List Byte) (p : Pass) :
    (p.advance buf).val = valueOfCode (codeAt buf p.cur) := rfl
@[simp] theorem Pass.advance_out (buf : List Byte) (p : Pass) :
    (p.advance buf).out = p.out ++ [rom (codeAt buf p.cur)] := rfl
@[simp] theorem State.pass_cur (s : State) : s.pass.cur = s.cur := rfl
@[simp] theorem State.pass_val (s : State) : s.pass.val = s.val := rfl
@[simp] theorem State.pass_out (s : State) : s.pass.out = s.out := rfl

end Sys2Proof.Machine
end

