-- ==== Sys2Proof/Laws/Ops.lean ====
section
/-!
SUPPORT. What the shared operations do, said once: memory, the window, answers, fault entry, inputs.
-/
namespace Sys2Proof.Machine

/-! ### Memory -/

theorem Memory.read_ofBytes (bytes : List Byte) (a x : Nat) :
    (Memory.ofBytes a bytes).read x = if a ≤ x then bytes[x - a]? else none := by
  induction bytes generalizing a with
  | nil => simp [Memory.ofBytes, Memory.read]
  | cons b rest ih =>
    simp only [Memory.ofBytes, Memory.read, ih]
    rcases Nat.lt_trichotomy a x with h | rfl | h
    · obtain ⟨k, rfl⟩ := Nat.exists_eq_add_of_lt h
      simp [show a ≠ a + k + 1 by omega, show a + 1 ≤ a + k + 1 by omega, show a ≤ a + k + 1 by omega,
        show a + k + 1 - (a + 1) = k by omega, show a + k + 1 - a = k + 1 by omega]
    · simp
    · simp [show a ≠ x by omega, show ¬ a + 1 ≤ x by omega, show ¬ a ≤ x by omega]

theorem Memory.ofBytes_addresses (bytes : List Byte) (a : Nat) :
    (Memory.ofBytes a bytes).map Prod.fst = List.range' a bytes.length := by
  induction bytes generalizing a with
  | nil => rfl
  | cons b rest ih => simp [Memory.ofBytes, ih, List.range'_succ]

/-- A memory whose addresses are `0, 1, ..., n - 1` is in canonical form. -/
theorem Memory.wf_of_addresses {m : Memory} {n : Nat} (h : m.map Prod.fst = List.range n) : m.wf := by
  have hp : (m.map Prod.fst).Pairwise (· < ·) := h ▸ List.pairwise_lt_range
  exact List.pairwise_map.mp hp

/-- LOAD's memory operation keeps the canonical form. -/
theorem Memory.ofBytes_wf (bytes : List Byte) (a : Nat) : (Memory.ofBytes a bytes).wf := by
  have hp : ((Memory.ofBytes a bytes).map Prod.fst).Pairwise (· < ·) :=
    Memory.ofBytes_addresses bytes a ▸ List.pairwise_lt_range'
  exact List.pairwise_map.mp hp

theorem State.reset_mem_wf : State.reset.mem.wf := List.Pairwise.nil

theorem Memory.read_isSome_iff (m : Memory) (a : Nat) : (m.read a).isSome ↔ a ∈ m.map Prod.fst := by
  induction m with
  | nil => simp [Memory.read]
  | cons cell rest ih =>
    obtain ⟨k, b⟩ := cell
    by_cases h : k = a
    · simp [Memory.read, h]
    · simp only [Memory.read, h, if_false, List.map_cons, List.mem_cons, ih]
      exact ⟨.inr, fun o => o.resolve_left fun e => h e.symm⟩

theorem Memory.read_eq_some_iff {m : Memory} (hm : m.wf) (a : Nat) (b : Byte) :
    m.read a = some b ↔ (a, b) ∈ m := by
  induction m with
  | nil => simp [Memory.read]
  | cons cell rest ih =>
    obtain ⟨k, c⟩ := cell
    obtain ⟨hk, hrest⟩ := List.pairwise_cons.mp hm
    by_cases h : k = a
    · subst h
      simp only [Memory.read, if_true, List.mem_cons, Prod.mk.injEq, true_and, Option.some.injEq]
      constructor
      · exact fun hb => .inl hb.symm
      · rintro (hb | hb)
        · exact hb.symm
        · exact absurd (hk _ hb) (by simp)
    · simp [Memory.read, h, ih hrest, show a ≠ k from fun e => h e.symm]

/-! ### Reading ranges -/

theorem State.readRange_succ (s : State) (a n : Nat) (b : Byte) (bs : List Byte) (hb : s.memRead a = some b)
    (hs : s.readRange (a + 1) n = some bs) : s.readRange a (n + 1) = some (b :: bs) := by
  simp [State.readRange, hb, hs]

/-- What a range read answers: its length and its bytes. -/
theorem State.readRange_spec {s : State} {a n : Nat} {bs : List Byte} (h : s.readRange a n = some bs) :
    bs.length = n ∧ ∀ i, i < n → s.memRead (a + i) = bs[i]? := by
  induction n generalizing a bs with
  | zero => simp [State.readRange] at h; simp [← h]
  | succ n ih =>
    simp only [State.readRange] at h
    split at h
    · rename_i b bs' hb hbs
      obtain ⟨hl, hi⟩ := ih hbs
      obtain rfl := (Option.some.inj h).symm
      refine ⟨by simp [hl], fun i h => ?_⟩
      cases i with
      | zero => simpa using hb
      | succ i => simpa [Nat.add_assoc, Nat.add_comm 1 i] using hi i (by omega)
    · cases h

theorem State.readRange_of_bytes {s : State} {a : Nat} {bs : List Byte}
    (h : ∀ i, i < bs.length → s.memRead (a + i) = bs[i]?) : s.readRange a bs.length = some bs := by
  induction bs generalizing a with
  | nil => rfl
  | cons b rest ih =>
    refine State.readRange_succ s a rest.length b rest (by simpa using h 0 (by simp)) (ih fun i hi => ?_)
    simpa [Nat.add_assoc, Nat.add_comm 1 i] using h (i + 1) (by simpa using hi)

theorem State.readRange_isSome {s : State} {a n : Nat} (h : ∀ i, i < n → (s.memRead (a + i)).isSome) :
    ∃ bs, s.readRange a n = some bs := by
  induction n generalizing a with
  | zero => exact ⟨[], rfl⟩
  | succ n ih =>
    obtain ⟨b, hb⟩ := Option.isSome_iff_exists.mp (h 0 (by omega))
    obtain ⟨bs, hbs⟩ := ih (a := a + 1) fun i hi => by simpa [Nat.add_assoc, Nat.add_comm 1 i] using h (i + 1) (by omega)
    exact ⟨b :: bs, State.readRange_succ s a n b bs hb hbs⟩

/-- A range read depends only on the bytes of the range. -/
theorem State.readRange_congr {s t : State} {a n : Nat} (h : ∀ i, i < n → t.memRead (a + i) = s.memRead (a + i)) :
    t.readRange a n = s.readRange a n := by
  induction n generalizing a with
  | zero => rfl
  | succ n ih =>
    have h0 : t.memRead a = s.memRead a := h 0 (by omega)
    have hr : t.readRange (a + 1) n = s.readRange (a + 1) n :=
      ih fun i hi => by simpa [Nat.add_assoc, Nat.add_comm 1 i] using h (i + 1) (by omega)
    simp only [State.readRange, h0, hr]

/-- Reading memory depends on MEM and RAWLEN alone. -/
theorem State.memRead_congr {s t : State} (hm : t.mem = s.mem) (hr : t.rawLen = s.rawLen) (a : Nat) :
    t.memRead a = s.memRead a := by
  simp only [State.memRead, hm, hr]

/-- The buffer depends on MEM, RAWLEN and the window alone. -/
theorem State.buffer_congr {s t : State} (hm : t.mem = s.mem) (hr : t.rawLen = s.rawLen) (hb : t.base = s.base)
    (hl : t.len = s.len) : t.buffer = s.buffer := by
  simp only [State.buffer, hb, hl]
  exact State.readRange_congr fun i _ => State.memRead_congr hm hr _

theorem State.buffer_length {s : State} {buf : List Byte} (h : s.buffer = some buf) : buf.length = s.len :=
  (State.readRange_spec h).1

/-! ### What the invariant gives -/

theorem State.Inv.mem_wf {s : State} (h : s.Inv) : s.mem.wf := Memory.wf_of_addresses h.mem_addresses

/-- Every address below RAWLEN holds a byte. -/
theorem State.Inv.memRead_isSome {s : State} (h : s.Inv) {a : Nat} (ha : a < s.rawLen) : (s.memRead a).isSome := by
  simp [State.memRead, ha, Memory.read_isSome_iff, h.mem_addresses]

/-- The current buffer is readable and has LEN bytes. -/
theorem State.Inv.exists_buffer {s : State} (h : s.Inv) : ∃ buf, s.buffer = some buf ∧ buf.length = s.len := by
  obtain ⟨buf, hb⟩ := State.readRange_isSome (s := s) (a := s.base) (n := s.len) fun i hi =>
    h.memRead_isSome (by have := h.window; omega)
  exact ⟨buf, hb, State.buffer_length hb⟩

/-- The whole payload is readable and has RAWLEN bytes. -/
theorem State.Inv.exists_payload {s : State} (h : s.Inv) : ∃ raw, s.payload = some raw ∧ raw.length = s.rawLen := by
  obtain ⟨raw, hr⟩ := State.readRange_isSome (s := s) (a := 0) (n := s.rawLen) fun i hi =>
    h.memRead_isSome (by omega)
  exact ⟨raw, hr, (State.readRange_spec hr).1⟩

/-! ### Answers, fault entry, inputs -/

theorem State.succeed_eq (s : State) (d : Value) : s.succeed d = .next { s with reply := .response .ok d } := rfl

theorem State.refuse_eq (s : State) : s.refuse = .next { s with reply := .response .refused 0 } := rfl

theorem State.takeInput_nil {s : State} (h : s.inbox = []) : s.takeInput = none := by
  simp [State.takeInput, h]

theorem State.takeInput_cons {s : State} {input : Input} {rest : List Input} (h : s.inbox = input :: rest) :
    s.takeInput = some (input, { s with inbox := rest }) := by
  simp [State.takeInput, h]

end Sys2Proof.Machine
end

