-- ==== Sys2Proof/Laws/Reader.lean ====
section
/-!
SUPPORT. What the reader and the decode loop compute: bounds, agreement, the shape of the loop.
-/
namespace Sys2Proof.Machine

/-! ### Fields -/

theorem fieldValue_lt (buf : List Byte) (c w : Nat) : fieldValue buf c w < 2 ^ w := by
  induction w with
  | zero => simp [fieldValue]
  | succ w ih =>
    have := Bool.toNat_lt (streamBit buf (c + w))
    simp only [fieldValue, Nat.pow_succ]
    omega

/-- A field depends only on its own stream bits. -/
theorem fieldValue_congr {buf buf' : List Byte} {c w : Nat}
    (h : ∀ p, c ≤ p → p < c + w → streamBit buf p = streamBit buf' p) : fieldValue buf c w = fieldValue buf' c w := by
  induction w with
  | zero => rfl
  | succ w ih =>
    simp only [fieldValue, ih fun p h1 h2 => h p h1 (by omega), h (c + w) (by omega) (by omega)]

/-- A longer field is the shorter one followed by the next. -/
theorem fieldValue_add (buf : List Byte) (c a b : Nat) :
    fieldValue buf c (a + b) = fieldValue buf c a * 2 ^ b + fieldValue buf (c + a) b := by
  induction b with
  | zero => simp [fieldValue]
  | succ b ih =>
    rw [← Nat.add_assoc, fieldValue, ih, fieldValue, Nat.pow_succ, Nat.add_assoc c a b]
    ring

theorem fieldValue_testBit (buf : List Byte) (c w k : Nat) (hk : k < w) :
    (fieldValue buf c w).testBit (w - 1 - k) = streamBit buf (c + k) := by
  induction w with
  | zero => omega
  | succ w ih =>
    simp only [fieldValue]
    rcases Nat.lt_or_eq_of_le (Nat.le_of_lt_succ hk) with h | rfl
    · obtain ⟨j, hj⟩ : ∃ j, w + 1 - 1 - k = j + 1 := ⟨w - 1 - k, by omega⟩
      have hjk : j = w - 1 - k := by omega
      have hb := Bool.toNat_lt (streamBit buf (c + w))
      rw [hj, Nat.testBit_succ, show (2 * fieldValue buf c w + (streamBit buf (c + w)).toNat) / 2 = fieldValue buf c w by
        omega, hjk, ih h]
    · cases hs : streamBit buf (c + k) <;> simp

theorem valueOfNat_toNat {n : Nat} (h : n < 2 ^ 32) : (valueOfNat n).toNat = n := by
  simpa [valueOfNat] using h

theorem readBits_eq {buf : List Byte} {c w : Nat} (h1 : 1 ≤ w) (h2 : w ≤ 32) (h3 : c + w ≤ 8 * buf.length) :
    readBits buf c w = some (valueOfNat (fieldValue buf c w), c + w) := by
  simp [readBits, h1, h2, h3]

theorem codeAt_toNat (buf : List Byte) (c : Nat) : (codeAt buf c).toNat = fieldValue buf c 6 := by
  have h := fieldValue_lt buf c 6
  simp only [codeAt, Config.codeWidth, BitVec.toNat_ofNat]
  omega

/-- The 6-bit code, zero-extended, is the 6-bit field. -/
theorem valueOfCode_codeAt (buf : List Byte) (c : Nat) : valueOfCode (codeAt buf c) = valueOfNat (fieldValue buf c 6) := by
  apply BitVec.eq_of_toNat_eq
  have h := fieldValue_lt buf c 6
  rw [valueOfNat_toNat (by omega), valueOfCode, BitVec.toNat_setWidth, codeAt_toNat]
  omega

/-! ### The ROM -/

/-- Every character of the ROM is valid text (41_alphabet_decoder.md R131 (f)). -/
theorem validChar_rom : ∀ c : Code, validChar (rom c) = true := by decide

theorem rom_mem (c : Code) : rom c ∈ romTable := List.getElem_mem _

/-! ### The decode loop -/

theorem moreBits_iff (buf : List Byte) (c : Nat) : moreBits buf c = true ↔ 6 ≤ 8 * buf.length - c :=
  decide_eq_true_iff

theorem State.more_iff (s : State) : s.more = true ↔ 6 ≤ 8 * s.len - s.cur :=
  decide_eq_true_iff

/-- A pass that has read `k` codes of `buf` from cursor 0. -/
structure Pass.AfterCodes (buf : List Byte) (k : Nat) (p : Pass) : Prop where
  cur : p.cur = 6 * k
  out_length : p.out.length = k
  out_get : ∀ j, j < k → p.out[j]? = some (rom (codeAt buf (6 * j)))
  val : p.val = if k = 0 then 0 else valueOfCode (codeAt buf (6 * (k - 1)))

theorem Pass.AfterCodes.start (buf : List Byte) : Pass.AfterCodes buf 0 Pass.start :=
  ⟨rfl, rfl, fun j h => by omega, rfl⟩

theorem Pass.AfterCodes.advance {buf : List Byte} {k : Nat} {p : Pass} (h : Pass.AfterCodes buf k p) :
    Pass.AfterCodes buf (k + 1) (p.advance buf) where
  cur := by simp [h.cur]; omega
  out_length := by simp [h.out_length]
  out_get j hj := by
    rcases Nat.lt_or_eq_of_le (Nat.le_of_lt_succ hj) with hj | rfl
    · simp [List.getElem?_append_left (h.out_length ▸ hj), h.out_get j hj]
    · simp [h.out_length, h.cur]
  val := by simp [h.cur]

/-- The loop with enough iterations ends with every complete code read. -/
theorem decodeLoop_afterCodes (buf : List Byte) (fuel k : Nat) (p : Pass) (h : Pass.AfterCodes buf k p)
    (hk : k ≤ 8 * buf.length / 6) (hf : 8 * buf.length / 6 ≤ k + fuel) :
    Pass.AfterCodes buf (8 * buf.length / 6) (decodeLoop buf fuel p) := by
  induction fuel generalizing k p with
  | zero => exact (show k = 8 * buf.length / 6 by omega) ▸ h
  | succ fuel ih =>
    simp only [decodeLoop]
    split
    · rename_i hm
      rw [moreBits_iff, h.cur] at hm
      exact ih (k + 1) _ h.advance (by omega) (by omega)
    · rename_i hm
      rw [moreBits_iff, h.cur] at hm
      exact (show k = 8 * buf.length / 6 by omega) ▸ h

theorem decodePass_afterCodes (buf : List Byte) : Pass.AfterCodes buf (8 * buf.length / 6) (decodePass buf) :=
  decodeLoop_afterCodes buf _ 0 _ (.start buf) (by omega) (by omega)

/-- A pass is determined by the number of codes read. -/
theorem Pass.AfterCodes.unique {buf : List Byte} {k : Nat} {p q : Pass} (hp : Pass.AfterCodes buf k p)
    (hq : Pass.AfterCodes buf k q) : p = q := by
  have ho : p.out = q.out := by
    apply List.ext_getElem?
    intro j
    by_cases hj : j < k
    · rw [hp.out_get j hj, hq.out_get j hj]
    · rw [List.getElem?_eq_none (by rw [hp.out_length]; omega), List.getElem?_eq_none (by rw [hq.out_length]; omega)]
  obtain ⟨pc, pv, po⟩ := p
  obtain ⟨qc, qv, qo⟩ := q
  simp only [Pass.mk.injEq]
  exact ⟨hp.cur.trans hq.cur.symm, hp.val.trans hq.val.symm, ho⟩

theorem Pass.AfterCodes.out_rom {buf : List Byte} {k : Nat} {p : Pass} (h : Pass.AfterCodes buf k p) :
    ∀ ch ∈ p.out, ∃ c, ch = rom c := by
  intro ch hch
  obtain ⟨j, hj, rfl⟩ := List.getElem_of_mem hch
  have := h.out_get j (h.out_length ▸ hj)
  rw [List.getElem?_eq_getElem hj] at this
  exact ⟨_, Option.some.inj this⟩

theorem Pass.AfterCodes.all_valid {buf : List Byte} {k : Nat} {p : Pass} (h : Pass.AfterCodes buf k p) :
    p.out.all validChar = true := by
  refine List.all_eq_true.mpr fun ch hch => ?_
  obtain ⟨c, rfl⟩ := h.out_rom ch hch
  exact validChar_rom c

end Sys2Proof.Machine
end

