-- ==== Sys2Proof/Laws/Commands.lean ====
section
/-!
SUPPORT. One lemma per meaning that says once everything it can do; invariants and frames follow from these cases.
-/
namespace Sys2Proof.Machine

/-- START has one outcome. -/
theorem execStart_eq (s : State) : execStart s = .next ((s.beginAttempt .active).answer .ok 0) := rfl

/-- LOOKUP has one outcome. -/
theorem execLookup_eq (c : Code) (s : State) : execLookup c s = .next (s.answer .ok (valueOfByte (rom c))) := rfl

/-- What RDBITS can answer as a next state. -/
theorem execRdbits_cases {w : Code} {s t : State} (h : execRdbits w s = .next t) :
    ((¬ Instr.legalWidth w ∨ s.phase ≠ .active) ∧ t = s.answer .refused 0) ∨
    (Instr.legalWidth w ∧ s.phase = .active ∧ 8 * s.len < s.cur + w.toNat ∧
      t = (s.enterFault .bufferExhausted).answer .fault 2) ∨
    (Instr.legalWidth w ∧ s.phase = .active ∧ s.cur + w.toNat ≤ 8 * s.len ∧
      ∃ buf v, s.buffer = some buf ∧ readBits buf s.cur w.toNat = some (v, s.cur + w.toNat) ∧
        t = { s with val := v, cur := s.cur + w.toNat, reply := .response .ok v }) := by
  unfold execRdbits at h
  split at h
  · rename_i hw
    exact .inl ⟨.inl hw, by simpa [State.refuse] using h.symm⟩
  · rename_i hw
    have hw := Decidable.not_not.mp hw
    split at h
    · rename_i hp
      exact .inl ⟨.inr hp, by simpa [State.refuse] using h.symm⟩
    · rename_i hp
      have hp := Decidable.not_not.mp hp
      split at h
      · rename_i hc
        exact .inr (.inl ⟨hw, hp, hc, (Host.Outcome.next.inj h).symm⟩)
      · rename_i hc
        have hc : s.cur + w.toNat ≤ 8 * s.len := Nat.le_of_not_lt hc
        split at h
        · cases h
        · rename_i v c2 hb
          obtain ⟨buf, hbuf, hread⟩ := Option.bind_eq_some_iff.mp hb
          have hr := readBits_eq (buf := buf) hw.1 hw.2 (State.buffer_length hbuf ▸ hc)
          have hc2 : c2 = s.cur + w.toNat := by
            have := hread.symm.trans hr
            simp only [Option.some.injEq, Prod.mk.injEq] at this
            exact this.2
          subst hc2
          exact .inr (.inr ⟨hw, hp, hc, buf, v, hbuf, hread, (Host.Outcome.next.inj h).symm⟩)

/-- What DEC1 can answer as a next state; it never faults. -/
theorem execDec1_cases {s t : State} (h : execDec1 s = .next t) :
    (s.phase ≠ .active ∧ t = s.answer .refused 0) ∨
    (s.phase = .active ∧ 6 ≤ 8 * s.len - s.cur ∧ ∃ buf, s.buffer = some buf ∧
      t = (s.withPass (s.pass.advance buf)).answer .ok (decodedDatum (rom (codeAt buf s.cur)))) ∨
    (s.phase = .active ∧ 8 * s.len - s.cur < 6 ∧ t = { s with phase := .done, reply := .response .ok 0 }) := by
  unfold execDec1 at h
  split at h
  · rename_i hp
    exact .inl ⟨hp, (Host.Outcome.next.inj h).symm⟩
  · rename_i hp
    have hp := Decidable.not_not.mp hp
    split at h
    · rename_i hm
      rw [State.more_iff] at hm
      split at h
      · cases h
      · rename_i buf hb
        simp only [validChar_rom, if_true] at h
        exact .inr (.inl ⟨hp, hm, buf, hb, (Host.Outcome.next.inj h).symm⟩)
    · rename_i hm
      rw [State.more_iff] at hm
      exact .inr (.inr ⟨hp, by omega, (Host.Outcome.next.inj h).symm⟩)

/-- What DECODE can answer as a next state; it never faults. -/
theorem execDecode_cases {s t : State} (h : execDecode s = .next t) :
    ∃ buf, s.buffer = some buf ∧
      t = ((s.beginAttempt .done).withPass (decodePass buf)).answer .ok (countDatum (decodePass buf).out.length) := by
  unfold execDecode at h
  split at h
  · cases h
  · rename_i buf hb
    simp only [(decodePass_afterCodes buf).all_valid, if_true] at h
    exact ⟨buf, hb, (Host.Outcome.next.inj h).symm⟩

/-- DECODE of a readable buffer. -/
theorem execDecode_eq {s : State} {buf : List Byte} (h : s.buffer = some buf) :
    execDecode s =
      .next (((s.beginAttempt .done).withPass (decodePass buf)).answer .ok (countDatum (decodePass buf).out.length)) := by
  simp only [execDecode, h, (decodePass_afterCodes buf).all_valid, if_true]
  rfl

/-- What FRAME can answer as a next state. -/
theorem execFrame_cases {s t : State} (h : execFrame s = .next t) :
    (s.phase = .active ∧ t = s.answer .refused 0) ∨
    (s.phase ≠ .active ∧ s.framingFails ∧ t = (s.enterFault .framing).answer .fault 1) ∨
    (s.phase ≠ .active ∧ 14 + s.frameLength ≤ s.rawLen ∧
      t = ((s.setWindow 14 s.frameLength).beginAttempt .idle).answer .ok (valueOfNat s.frameLength)) := by
  unfold execFrame at h
  split at h
  · rename_i hp
    exact .inl ⟨hp, (Host.Outcome.next.inj h).symm⟩
  · rename_i hp
    split at h
    · rename_i hr
      exact .inr (.inl ⟨hp, .inl hr, (Host.Outcome.next.inj h).symm⟩)
    · split at h
      · rename_i hi lo hhi hlo
        have hf : s.frameLength = (lengthField hi lo).toNat := by simp [State.frameLength, hhi, hlo]
        simp only [← hf] at h
        split at h
        · rename_i hc
          exact .inr (.inl ⟨hp, .inr hc, (Host.Outcome.next.inj h).symm⟩)
        · rename_i hc
          exact .inr (.inr ⟨hp, Nat.le_of_not_lt hc, (Host.Outcome.next.inj h).symm⟩)
      · cases h

/-- FRAME once both length bytes are read. -/
theorem execFrame_of_bytes {s : State} {hi lo : Byte} (hp : s.phase ≠ .active) (hr : ¬ s.rawLen < 14)
    (hhi : s.memRead 12 = some hi) (hlo : s.memRead 13 = some lo) :
    execFrame s =
      if 14 + (lengthField hi lo).toNat > s.rawLen then s.raise .framing
      else ((s.setWindow 14 (lengthField hi lo).toNat).beginAttempt .idle).succeed
        (valueOfNat (lengthField hi lo).toNat) := by
  simp only [execFrame, hp, hr, Config.lengthOffset, Config.segmentOffset, hhi, hlo, if_false]

/-- FRAME of a payload shorter than 14 bytes. -/
theorem execFrame_of_short {s : State} (hp : s.phase ≠ .active) (hr : s.rawLen < 14) :
    execFrame s = s.raise .framing := by
  simp only [execFrame, hp, hr, Config.segmentOffset, if_false, if_true]

/-- What LOAD can answer; it always answers a next state. -/
theorem hostLoad_cases (bytes : List Byte) (s : State) :
    ((s.phase = .active ∨ bytes.length > s.rawMax) ∧ hostLoad bytes s = .next (s.answer .refused 0)) ∨
    (s.phase ≠ .active ∧ bytes.length ≤ s.rawMax ∧
      hostLoad bytes s = .next { s with
        mem := Memory.ofBytes 0 bytes, rawLen := bytes.length, base := 0, len := bytes.length, cur := 0, val := 0,
        out := [], err := .none, phase := .idle, reply := .response .ok 0 }) := by
  unfold hostLoad
  split
  · rename_i hp
    exact .inl ⟨.inl hp, rfl⟩
  · rename_i hp
    split
    · rename_i hl
      exact .inl ⟨.inr hl, rfl⟩
    · rename_i hl
      exact .inr ⟨hp, Nat.le_of_not_lt hl, rfl⟩

end Sys2Proof.Machine
end

