-- ==== Sys2Proof/Laws/PerInstr.lean ====
section
/-!
SUPPORT. Statements for every command, one lemma per constructor: the two fields of the command word are read back from
the encoded word (30_encoding.md R87, R88).
-/
namespace Sys2Proof.Laws.EncodeFields

/-- The group and argument fields of a command's word are the command's own. -/
def Statement (i : Instr) : Prop := wordGroup (encode i) = i.group ∧ wordArg (encode i) = i.arg

theorem start : Statement .start := ⟨rfl, rfl⟩

theorem frame : Statement .frame := ⟨rfl, rfl⟩

theorem decode : Statement .decode := ⟨rfl, rfl⟩

theorem dec1 : Statement .dec1 := ⟨rfl, rfl⟩

/-- The two fields of a word put together from them. -/
theorem fields_of_commandWord (group : BitVec 2) (arg : Code) :
    wordGroup (commandWord group arg) = group ∧ wordArg (commandWord group arg) = arg := by
  revert group arg
  decide

theorem rdbits (w : Code) : Statement (.rdbits w) := fields_of_commandWord 0b01 w

theorem lookup (c : Code) : Statement (.lookup c) := fields_of_commandWord 0b10 c

end Sys2Proof.Laws.EncodeFields
end

