-- ==== Sys2Proof/Laws/Step.lean ====
section
/-!
SUPPORT. What a step does, said once: it carries out the oldest input.
-/
namespace Sys2Proof.Machine

theorem step_of_cons {s : State} {input : Input} {rest : List Input} (h : s.inbox = input :: rest) :
    step s = perform input { s with inbox := rest } := by
  rw [step, State.takeInput_cons h]

theorem step_of_nil {s : State} (h : s.inbox = []) : step s = .refused .noInput := by
  rw [step, State.takeInput_nil h]

/-- A step that answers a next state carried out some oldest input. -/
theorem step_cases {s t : State} (h : step s = .next t) :
    ∃ input rest, s.inbox = input :: rest ∧ perform input { s with inbox := rest } = .next t := by
  cases hi : s.inbox with
  | nil => rw [step_of_nil hi] at h; cases h
  | cons input rest => exact ⟨input, rest, rfl, step_of_cons hi ▸ h⟩

theorem runWord_ok {word : Byte} {i : Instr} (h : decodeWord word = .ok i) (s : State) : runWord word s = exec i s := by
  rw [runWord, h]

theorem runWord_error {word : Byte} {e : DecodeError} (h : decodeWord word = .error e) (s : State) :
    runWord word s = s.refuse := by
  rw [runWord, h]

end Sys2Proof.Machine
end

