-- ==== Sys2Proof/Tests/Slice0.lean ====
section
/-!
SUPPORT. Tests of the model, with every expected value from spec/ (the vector is named in each docstring), and, for every
obligation with hypotheses, a witness that meets them.
-/
namespace Sys2Proof.Tests

open Sys2Proof Sys2Proof.Machine

/-! ### Small states -/

/-- The buffer of the vectors V-B. -/
def bytesB : List Byte := [0xB4, 0xC0, 0xDE, 0xAD, 0xBE, 0xEF]

/-- The payload of V-F1: twelve header bytes, the length 5, the encoding of HELLO with an exclamation mark. -/
def bytesF1 : List Byte :=
  [0, 0, 0, 0, 0, 0, 0, 0, 0, 0, 0, 0, 0x00, 0x05, 0xA2, 0x5B, 0x2C, 0xBC, 0x10]

/-- A payload of 16 bytes whose length field is 65535 (V-F5). -/
def bytesF5 : List Byte := [0, 0, 0, 0, 0, 0, 0, 0, 0, 0, 0, 0, 0xFF, 0xFF, 0xA2, 0x5B]

/-- The state after LOAD of `bytes`. -/
def loaded (bytes : List Byte) : State :=
  { State.reset with mem := Memory.ofBytes 0 bytes, rawLen := bytes.length, len := bytes.length }

/-- A pass open over `bytes` with the cursor at `cur` (reached by RDBITS, so with no output). -/
def opened (bytes : List Byte) (cur : Nat) : State := { loaded bytes with phase := .active, cur := cur }

/-- A faulted attempt over `bytes`. -/
def faulted (bytes : List Byte) : State := { loaded bytes with phase := .fault, err := .bufferExhausted }

/-- The state after one LOAD with `input` issued. -/
def pending (s : State) (input : Input) : State := s.issue input

/-- The next state of an outcome. -/
def nextOf (o : Host.Outcome State Fault Refusal) : Option State :=
  match o with
  | .next t => some t
  | .fault _ => none
  | .refused _ => none

theorem exists_of_nextOf {o : Host.Outcome State Fault Refusal} (h : (nextOf o).isSome) : ∃ t, o = .next t := by
  cases o <;> simp_all [nextOf]

/-- What a test looks at: the answer, CUR, VAL, PHASE, ERR, OUT. -/
structure Shown where
  reply : Reply
  cur : Nat
  val : Value
  phase : Phase
  err : ErrCode
  out : List Byte
  deriving DecidableEq, Repr

/-- What an outcome's next state shows. -/
def shown (o : Host.Outcome State Fault Refusal) : Option Shown :=
  (nextOf o).map fun t => ⟨t.reply, t.cur, t.val, t.phase, t.err, t.out⟩

/-! ### Well-formedness -/

/-- Width 0 is illegal (V-B20). -/
theorem test_wf_refuses_width_0 : (Instr.rdbits 0).wf = false := by decide

/-- Width 33 is illegal (V-B21). -/
theorem test_wf_refuses_width_33 : (Instr.rdbits 33).wf = false := by decide

/-- Widths 1 and 32 are legal (V-E8, V-E9). -/
theorem test_wf_accepts_1_and_32 : (Instr.rdbits 1).wf = true ∧ (Instr.rdbits 32).wf = true := by decide

/-! ### Decoding, words written out from 30_encoding.md R87 and R88 -/

theorem test_decode_start : decodeWord 0b00000000 = .ok .start := by decide
theorem test_decode_frame : decodeWord 0b00000001 = .ok .frame := by decide
theorem test_decode_decode : decodeWord 0b00000010 = .ok .decode := by decide
theorem test_decode_dec1 : decodeWord 0b00000011 = .ok .dec1 := by decide
theorem test_decode_rdbits_11 : decodeWord 0b01001011 = .ok (.rdbits 11) := by decide
theorem test_decode_lookup_45 : decodeWord 0b10101101 = .ok (.lookup 45) := by decide
theorem test_decode_reserved : decodeWord 0b00000100 = .error (.reserved 4) ∧
    decodeWord 0b11000000 = .error (.reserved 0xC0) := by decide
theorem test_decode_leaves_the_rest : decode [0x44, 0x03] = .ok (.rdbits 4, [0x03]) := by decide
theorem test_decodeTableWord : decodeTableWord 8 0x46 = some (.rdbits 6) ∧ decodeTableWord 8 0xFF = none := by decide

/-! ### One step on a small state -/

/-- V-B3, the source's byte-boundary example. -/
theorem test_rdbits_crosses_a_byte :
    shown (exec (.rdbits 6) (opened bytesB 6)) =
      some ⟨.response .ok 0xC, 12, 0xC, .active, .none, []⟩ := by decide +kernel

/-- V-B12: 32 bits off a boundary, five bytes touched. -/
theorem test_rdbits_32_bits_in_five_bytes :
    shown (exec (.rdbits 32) (opened bytesB 4)) =
      some ⟨.response .ok 0x4C0DEADB, 36, 0x4C0DEADB, .active, .none, []⟩ := by decide +kernel

/-- V-P9: exhaustion keeps CUR and VAL and empties OUT. -/
theorem test_rdbits_exhaustion :
    shown (exec (.rdbits 11) { opened [0xB4, 0xC0] 6 with val := 45, out := [0x4D] }) =
      some ⟨.response .fault 2, 6, 45, .fault, .bufferExhausted, []⟩ := by decide +kernel

/-- V-B26: an illegal width is refused even where the read would be exhausted. -/
theorem test_rdbits_width_check_comes_first :
    shown (exec (.rdbits 0) (opened bytesB 48)) =
      some ⟨.response .refused 0, 48, 0, .active, .none, []⟩ := by decide +kernel

/-- The chunk algorithm on V-B13. -/
theorem test_chunks : readBitsByChunks bytesB 5 5 32 = some (0x981BD5B7, 37) := by decide +kernel

/-- V-L9: entry 60 is the backslash. -/
theorem test_lookup_60 : shown (exec (.lookup 60) (loaded [])) =
    some ⟨.response .ok 0x5C, 0, 0, .idle, .none, []⟩ := by decide +kernel

/-- P3: DEC1 at bit 4 of B4 C0 DE AD decodes 19, the digit 3. -/
theorem test_dec1_off_the_grid :
    shown (exec .dec1 (opened [0xB4, 0xC0, 0xDE, 0xAD] 4)) =
      some ⟨.response .ok 0x133, 10, 0x13, .active, .none, [0x33]⟩ := by decide +kernel

/-- DEC1 over FC, step 2: two bits remain and the pass ends. -/
theorem test_dec1_ends_the_pass :
    shown (exec .dec1 { opened [0xFC] 6 with val := 63, out := [0x5F] }) =
      some ⟨.response .ok 0, 6, 63, .done, .none, [0x5F]⟩ := by decide +kernel

/-- V-S2: the source's byte-boundary example. -/
theorem test_decode_byte_boundary :
    shown (exec .decode (loaded [0xB4, 0xC0])) =
      some ⟨.response .ok 2, 12, 12, .done, .none, [0x4D, 0x2C]⟩ := by decide +kernel

/-- V-A8: six padding bits of ones come back as an underscore. -/
theorem test_decode_six_padding_bits :
    shown (exec .decode (loaded [0x86, 0x28, 0xFF])) =
      some ⟨.response .ok 4, 24, 63, .done, .none, [0x41, 0x42, 0x43, 0x5F]⟩ := by decide +kernel

/-- V-F1: the window of the text segment. -/
theorem test_frame_window :
    (nextOf (exec .frame (loaded bytesF1))).map (fun t => (t.reply, t.base, t.len, t.phase)) =
      some (.response .ok 5, 14, 5, .idle) := by decide +kernel

/-- V-F5: 14 + 65535 does not wrap. -/
theorem test_frame_does_not_wrap :
    (nextOf (exec .frame (loaded bytesF5))).map (fun t => (t.reply, t.base, t.len, t.phase, t.err)) =
      some (.response .fault 1, 0, 16, .fault, .framing) := by decide +kernel

/-- V-P12: START leaves a fault. -/
theorem test_start_leaves_a_fault :
    shown (exec .start { faulted [0xB4, 0xC0] with cur := 6, val := 45 }) =
      some ⟨.response .ok 0, 0, 0, .active, .none, []⟩ := by decide +kernel

/-- V-P7: LOAD in ACTIVE is refused and the memory stays. -/
theorem test_load_is_refused_in_active :
    (nextOf (step (pending (opened [0xB4, 0xC0] 0) (.load [0x00])))).map (fun t => (t.reply, t.rawLen, t.mem)) =
      some (.response .refused 0, 2, [(0, 0xB4), (1, 0xC0)]) := by decide +kernel

/-- V-P14: LOAD leaves a fault, and the byte of the longer payload is gone. -/
theorem test_load_leaves_a_fault :
    (nextOf (step (pending (faulted [0xB4, 0xC0]) (.load [0x00])))).map (fun t => (t.phase, t.err, t.rawLen, t.mem)) =
      some (.idle, .none, 1, [(0, 0x00)]) := by decide +kernel

/-- V-P9: the STATUS byte after an exhaustion with bits left is 0x1B; after reset it is 0 (V-P1). -/
theorem test_status :
    State.status { faulted [0xB4, 0xC0] with cur := 6 } = 0x1B ∧ State.reset.status = 0x00 := by decide +kernel

/-- V-E5: a reserved word is refused by the step. -/
theorem test_step_refuses_a_reserved_word :
    shown (step (pending (opened bytesB 6) (.command 0x04))) =
      some ⟨.response .refused 0, 6, 0, .active, .none, []⟩ := by decide +kernel

/-- V-P2: DECODE as the first instruction after reset, through the host's fetch word. -/
theorem test_first_instruction_after_reset :
    shown (step (State.reset.withFetchWord 8 0x02)) = some ⟨.response .ok 0, 0, 0, .done, .none, []⟩ := by
  decide +kernel

/-! ### Witnesses: states and operands that meet the hypotheses of the obligations -/

theorem inv_loaded : (loaded bytesF1).Inv := by constructor <;> decide +kernel
theorem inv_loaded_F5 : (loaded bytesF5).Inv := by constructor <;> decide +kernel
theorem inv_opened : (opened bytesB 6).Inv := by constructor <;> decide +kernel
theorem inv_opened_42 : (opened bytesB 42).Inv := by constructor <;> decide +kernel
theorem inv_faulted : (faulted bytesF1).Inv := by constructor <;> decide +kernel
theorem inv_pending : (pending (opened bytesB 6) (.command 0x03)).Inv := by constructor <;> decide +kernel

theorem witness_ReservedAndIllegalWordsAreRefused :
    (pending State.reset (.command 0x61)).inbox = .command 0x61 :: [] ∧ spellsCommand 0x61 = false ∧
    spellsCommand 0x04 = false ∧ spellsCommand 0x3F = false ∧ spellsCommand 0x40 = false ∧
    spellsCommand 0x7F = false ∧ spellsCommand 0xC0 = false ∧ spellsCommand 0xFF = false := by decide +kernel

theorem witness_StepRunsTheDecodedCommand :
    (pending State.reset (.command 0x03)).inbox = .command 0x03 :: [] ∧ decodeWord 0x03 = .ok .dec1 ∧
    decodeWord 0xFF = .error (.reserved 0xFF) := by decide +kernel

theorem witness_StepTakesOneInputInOrder : ∃ t, step (pending State.reset .read) = .next t :=
  exists_of_nextOf (by decide +kernel)

theorem witness_ResetSetsEveryRegister : (pending (opened bytesB 6) .reset).inbox = .reset :: [] := rfl

theorem witness_NothingIsReadBeforeALoad :
    State.reset.rawLen = 0 ∧ State.reset.base = 0 ∧ State.reset.len = 0 ∧ State.reset.cur = 0 ∧
    State.reset.phase = .idle ∧ (∃ t, exec .start State.reset = .next t) ∧ Instr.legalWidth 1 ∧ Instr.legalWidth 32 :=
  ⟨rfl, rfl, rfl, rfl, rfl, ⟨_, rfl⟩, by decide, by decide⟩

theorem witness_RdbitsReadsOneField_refused :
    (0 : Code).toNat = 0 ∧ (33 : Code).toNat > 32 ∧ 1 ≤ (1 : Code).toNat ∧ (32 : Code).toNat ≤ 32 ∧
    (loaded bytesB).phase ≠ .active := by decide

theorem witness_RdbitsReadsOneField_exhausted :
    (opened bytesB 42).phase = .active ∧ (opened bytesB 42).cur + (7 : Code).toNat > 8 * (opened bytesB 42).len := by
  decide

theorem witness_RdbitsReadsOneField_reads :
    (opened bytesB 42).Inv ∧ (opened bytesB 42).phase = .active ∧
    (opened bytesB 42).cur + (6 : Code).toNat ≤ 8 * (opened bytesB 42).len :=
  ⟨inv_opened_42, by decide, by decide⟩

theorem witness_FieldIsABigEndianBitString :
    1 ≤ 32 ∧ 32 ≤ 32 ∧ 16 + 32 ≤ 8 * bytesB.length ∧ 42 + 6 ≤ 8 * bytesB.length := by decide

theorem witness_StreamBitsRunFromBitSevenOfEachByte : bytesB[5]? = some 0xEF ∧ 7 < 8 := by decide

theorem witness_ChunkAlgorithmComputesTheField : 1 ≤ 32 ∧ 32 ≤ 32 ∧ 5 + 32 ≤ 8 * bytesB.length := by decide

theorem witness_ConsecutiveReadsCompose : 1 ≤ 4 ∧ 1 ≤ 28 ∧ 4 + 28 ≤ 32 ∧ 16 + (4 + 28) ≤ 8 * bytesB.length := by decide

theorem witness_Dec1_refused : (loaded bytesB).phase ≠ .active := by decide

theorem witness_Dec1_exactly_six_bits :
    (opened bytesB 42).Inv ∧ (opened bytesB 42).phase = .active ∧
    6 ≤ 8 * (opened bytesB 42).len - (opened bytesB 42).cur := ⟨inv_opened_42, by decide, by decide⟩

theorem witness_Dec1_five_bits :
    (opened bytesB 43).phase = .active ∧ 8 * (opened bytesB 43).len - (opened bytesB 43).cur < 6 := by decide

theorem witness_DecodeRunsTheWholePass : (loaded bytesF1).Inv ∧ (faulted bytesF1).Inv := ⟨inv_loaded, inv_faulted⟩

theorem witness_DecodeIsStartThenDec1UntilDone : (opened bytesB 6).Inv := inv_opened

theorem witness_PaddingBitsDoNotMatter :
    ([0x84] : List Byte).length = ([0x87] : List Byte).length ∧
    ∀ p, p < 6 * (8 * ([0x84] : List Byte).length / 6) → streamBit [0x84] p = streamBit [0x87] p := by decide +kernel

theorem witness_FourCodesFillThreeBytes :
    bytesB[3 * 1]? = some 0xAD ∧ bytesB[3 * 1 + 1]? = some 0xBE ∧ bytesB[3 * 1 + 2]? = some 0xEF := by decide

theorem witness_FrameSetsTheWindow_refused : (opened bytesB 6).phase = .active := rfl

theorem witness_FrameSetsTheWindow_short :
    (loaded (bytesF1.take 13)).phase ≠ .active ∧ (loaded (bytesF1.take 13)).rawLen < 14 := by decide

theorem witness_FrameSetsTheWindow_long :
    (loaded bytesF5).Inv ∧ (loaded bytesF5).phase ≠ .active ∧ 14 ≤ (loaded bytesF5).rawLen ∧
    14 + (256 * (0xFF : Byte).toNat + (0xFF : Byte).toNat) > (loaded bytesF5).rawLen :=
  ⟨inv_loaded_F5, by decide, by decide, by decide⟩

theorem witness_FrameSetsTheWindow_exact_fit :
    (loaded bytesF1).Inv ∧ (loaded bytesF1).phase ≠ .active ∧ 14 ≤ (loaded bytesF1).rawLen ∧
    14 + (256 * (0x00 : Byte).toNat + (0x05 : Byte).toNat) ≤ (loaded bytesF1).rawLen :=
  ⟨inv_loaded, by decide, by decide, by decide⟩

theorem witness_FrameComputesExtractTextSegment :
    (loaded bytesF1).Inv ∧ (loaded bytesF5).Inv ∧ (loaded bytesF1).phase ≠ .active ∧
    (extractTextSegment bytesF1).isSome ∧ extractTextSegment bytesF5 = none :=
  ⟨inv_loaded, inv_loaded_F5, by decide, by decide +kernel, by decide +kernel⟩

theorem witness_FrameTwiceSetsTheSameWindow :
    (loaded bytesF1).phase ≠ .active ∧ ∃ t, exec .frame (loaded bytesF1) = .next t :=
  ⟨by decide, exists_of_nextOf (by decide +kernel)⟩

theorem witness_LoadPutsThePayloadInMemory_refused :
    (pending (opened bytesB 6) (.load [1])).inbox = .load [1] :: [] ∧ (pending (opened bytesB 6) (.load [1])).phase = .active ∧
    bytesF1.length > ({ State.reset with rawMax := 18 } : State).rawMax := by decide

theorem witness_LoadPutsThePayloadInMemory_accepted :
    (pending (faulted bytesF1) (.load bytesB)).inbox = .load bytesB :: [] ∧
    (pending (faulted bytesF1) (.load bytesB)).phase ≠ .active ∧
    bytesF1.length ≤ ({ State.reset with rawMax := 19 } : State).rawMax := by decide

theorem witness_ReadObservesAndChangesNothing :
    (pending (opened bytesB 6) .read).inbox = .read :: [] ∧ (opened bytesB 6).Inv := ⟨rfl, inv_opened⟩

theorem witness_FaultEntryIsPrecise :
    (nextOf (exec (.rdbits 7) (opened bytesB 42))).map State.reply = some (.response .fault 2) ∧
    (nextOf (exec .frame (loaded bytesF5))).map State.reply = some (.response .fault 1) := by decide +kernel

theorem witness_EachFaultHasOneCommand :
    (nextOf (exec (.rdbits 7) (opened bytesB 42))).map (fun t => (t.reply, t.err)) =
      some (.response .fault 2, .bufferExhausted) ∧
    (nextOf (exec .frame (loaded bytesF5))).map (fun t => (t.reply, t.err)) =
      some (.response .fault 1, .framing) := by decide +kernel

theorem witness_RefusalHasAReasonAndChangesNothing :
    (opened bytesB 6).refuses (.command 0x01) ∧ (loaded bytesB).refuses (.command 0x03) ∧
    (opened bytesB 6).refuses (.load []) ∧ (opened bytesB 6).refuses (.command 0x40) ∧
    (opened bytesB 6).refuses (.command 0xC0) ∧ ¬ (opened bytesB 6).refuses (.command 0x60) :=
  ⟨rfl, by show (loaded bytesB).phase ≠ .active; decide, .inl rfl,
    .inl (by show ¬ Instr.legalWidth (wordArg 0x40); decide), trivial,
    fun h => h.elim (fun n => n (by show Instr.legalWidth (wordArg 0x60); decide)) (fun n => n rfl)⟩

theorem witness_PhaseTable :
    (pending (opened bytesB 6) (.command 0x03)).Inv ∧
    (pending (opened bytesB 6) (.command 0x03)).inbox = .command 0x03 :: [] := ⟨inv_pending, rfl⟩

theorem witness_InvalidTextIsNeverLatched :
    (∃ t, step (pending (opened bytesB 6) (.command 0x03)) = .next t) ∧
    (pending (opened bytesB 6) (.command 0x03)).err ≠ .invalidText :=
  ⟨exists_of_nextOf (by decide +kernel), by decide⟩

theorem witness_FaultIsLeftByANewAttempt :
    (faulted bytesF1).Inv ∧ (faulted bytesF1).phase = .fault ∧ ¬ (faulted bytesF1).framingFails ∧
    (faulted bytesF5).framingFails ∧ bytesB.length ≤ (faulted bytesF1).rawMax :=
  ⟨inv_faulted, rfl, by decide +kernel, by decide +kernel, by decide⟩

theorem witness_FaultIsLeftByANewAttempt_others :
    (nextOf (step (pending (faulted bytesF1) (.command 0x00)))).map State.phase = some .active ∧
    (nextOf (step (pending (faulted bytesF1) (.command 0xBF)))).map State.phase = some .fault := by decide +kernel

theorem witness_FaultedAttemptStandsStill :
    (faulted bytesF5).Inv ∧ (faulted bytesF5).phase = .fault ∧ (faulted bytesF5).framingFails ∧
    (∃ t, exec .decode (faulted bytesB) = .next t) ∧ (faulted bytesB).phase = .fault :=
  ⟨by constructor <;> decide +kernel, rfl, by decide +kernel, exists_of_nextOf (by decide +kernel), rfl⟩

theorem witness_CommandsLeaveTheRestUnchanged :
    (∃ t, exec (.rdbits 6) (opened bytesB 6) = .next t) ∧ (∃ t, exec .dec1 (opened bytesB 6) = .next t) ∧
    (∃ t, exec .decode (opened bytesB 6) = .next t) ∧
    ((nextOf (exec .frame (loaded bytesF5))).map State.phase = some .fault) :=
  ⟨exists_of_nextOf (by decide +kernel), exists_of_nextOf (by decide +kernel), exists_of_nextOf (by decide +kernel),
    by decide +kernel⟩

/-- The window of the text segment of `bytesF1`. -/
def framedF1 : State := { loaded bytesF1 with base := 14, len := 5 }

/-- `bytesF1` with another header byte 0. -/
def otherHeader : Memory := Memory.ofBytes 0 (bytesF1.set 0 0xEE)

theorem otherHeader_agrees_below_19 : ∀ a, a < 19 → a ≠ 0 →
    { framedF1 with mem := otherHeader }.memRead a = framedF1.memRead a := by decide +kernel

/-- Two payloads that differ in header byte 0 only. -/
theorem witness_CommandsReadOnlyLengthFieldAndWindow :
    (∀ a, (a = 12 ∨ a = 13 ∨ (framedF1.base ≤ a ∧ a < framedF1.base + framedF1.len)) →
      { framedF1 with mem := otherHeader }.memRead a = framedF1.memRead a) ∧
    { framedF1 with mem := otherHeader }.memRead 0 ≠ framedF1.memRead 0 := by
  refine ⟨fun a ha => otherHeader_agrees_below_19 a ?_ ?_, by decide +kernel⟩ <;>
    simp only [framedF1] at ha <;> omega

theorem witness_CursorMovesByTheWidthRead :
    (∃ t, exec (.rdbits 6) (opened bytesB 42) = .next t) ∧ (∃ t, exec .frame (loaded bytesF5) = .next t) :=
  ⟨exists_of_nextOf (by decide +kernel), exists_of_nextOf (by decide +kernel)⟩

theorem witness_EveryStepKeepsTheInvariant :
    (pending (opened bytesB 6) (.command 0x03)).Inv ∧
    ∃ t, step (pending (opened bytesB 6) (.command 0x03)) = .next t :=
  ⟨inv_pending, exists_of_nextOf (by decide +kernel)⟩

theorem witness_EveryInputIsAnswered :
    (pending (opened bytesB 6) (.command 0x03)).Inv ∧ (pending (opened bytesB 6) (.command 0x03)).inbox ≠ [] :=
  ⟨inv_pending, by decide⟩

theorem witness_CodeGridIsKeptWithoutRdbits :
    (pending (opened bytesB 0) (.command 0x03)).onGrid ∧
    (∃ t, step (pending (opened bytesB 0) (.command 0x03)) = .next t) ∧
    ∀ word rest w, (pending (opened bytesB 0) (.command 0x03)).inbox = .command word :: rest →
      decodeWord word ≠ .ok (.rdbits w) := by
  refine ⟨by decide, exists_of_nextOf (by decide +kernel), fun word rest w h => ?_⟩
  cases h
  rw [show decodeWord 0x03 = .ok .dec1 by decide]
  simp

theorem witness_DecodeTwiceGivesTheSame : ∃ t, exec .decode (loaded bytesB) = .next t :=
  exists_of_nextOf (by decide +kernel)

theorem witness_PipelineDecodesTheTextSegment :
    State.reset.phase ≠ .active ∧ bytesF1.length ≤ State.reset.rawMax ∧
    extractTextSegment bytesF1 = some [0xA2, 0x5B, 0x2C, 0xBC, 0x10] ∧ extractTextSegment bytesF5 = none := by
  decide +kernel

/-! ### Two worked claims on concrete data -/

/-- V-A1: the encoding of HELLO with an exclamation mark decodes to it. -/
theorem test_hello : decodeString [0xA2, 0x5B, 0x2C, 0xBC, 0x10] = [0x48, 0x45, 0x4C, 0x4C, 0x4F, 0x21] := by
  decide +kernel

/-- The reference encoder on AB and on ABCD (95_test_vectors.md section 2.0, V-A2). -/
theorem test_pack : packCodes 0 [33, 34] = [0x86, 0x20] ∧ packCodes 0 [33, 34, 35, 36] = [0x86, 0x28, 0xE4] := by
  decide +kernel

end Sys2Proof.Tests
end

section
/-!
PROOFS. The family of 30_encoding.md: which words spell a command and what the others do (R91), and the bits of a
field (R86).
-/
namespace Sys2Proof

/-! ### The fields of a command word -/

theorem wordGroup_toNat (word : Byte) : (wordGroup word).toNat = word.toNat / 64 := by
  have := word.isLt
  simp only [wordGroup, BitVec.extractLsb'_toNat, Nat.shiftRight_eq_div_pow]
  omega

theorem wordArg_toNat (word : Byte) : (wordArg word).toNat = word.toNat % 64 := by
  simp [wordArg]

theorem wordGroup_eq_iff (word : Byte) (group : BitVec 2) :
    wordGroup word = group ↔ word.toNat / 64 = group.toNat := by
  rw [← BitVec.toNat_inj, wordGroup_toNat]

theorem wordArg_eq_iff (word : Byte) (arg : Code) : wordArg word = arg ↔ word.toNat % 64 = arg.toNat := by
  rw [← BitVec.toNat_inj, wordArg_toNat]

/-! ### The words that spell a command -/

/-- 30_encoding.md R91 by ranges: the four words of the control group, the legal RDBITS words, the LOOKUP words. -/
theorem spellsCommand_iff (word : Byte) : spellsCommand word = true ↔
    word.toNat ≤ 0x03 ∨ (0x41 ≤ word.toNat ∧ word.toNat ≤ 0x60) ∨ (0x80 ≤ word.toNat ∧ word.toNat ≤ 0xBF) := by
  have := word.isLt
  unfold spellsCommand decodeWord
  simp only [wordGroup_eq_iff, wordArg_eq_iff, BitVec.reduceToNat]
  split_ifs <;>
    simp only [Instr.wf, Instr.legalWidth, Config.widthMin, Config.widthMax, wordArg_toNat, decide_eq_true_eq, true_iff,
      false_iff] <;>
    omega

/-- A word that spells no command is reserved, or is RDBITS with an illegal width. -/
theorem decodeWord_of_not_spellsCommand {word : Byte} (h : spellsCommand word = false) :
    (∃ e, decodeWord word = .error e) ∨ ∃ w, decodeWord word = .ok (.rdbits w) ∧ ¬ Instr.legalWidth w := by
  unfold spellsCommand at h
  split at h
  case h_1 i hi =>
    cases i with
    | rdbits w => exact .inr ⟨w, hi, of_decide_eq_false h⟩
    | start | frame | decode | dec1 | lookup c => simp [Instr.wf] at h
  case h_2 e he => exact .inl ⟨e, he⟩

end Sys2Proof

namespace Sys2Proof.Machine

/-- R110's first check: RDBITS with an illegal width is refused, whatever the phase. -/
theorem execRdbits_of_illegalWidth {w : Code} (h : ¬ Instr.legalWidth w) (s : State) : execRdbits w s = s.refuse :=
  if_pos h

/-- A word that spells no command is refused in every state (30_encoding.md R91). -/
theorem runWord_of_not_spellsCommand {word : Byte} (h : spellsCommand word = false) (s : State) :
    runWord word s = s.refuse := by
  obtain ⟨e, he⟩ | ⟨w, hw, hillegal⟩ := decodeWord_of_not_spellsCommand h
  · exact runWord_error he s
  · rw [runWord_ok hw]
    exact execRdbits_of_illegalWidth hillegal s

/-- Settles O4: the range of the words that spell a command, complemented and counted; the others decode to nothing or
to an illegal RDBITS, and both are refused. -/
theorem reservedAndIllegalWordsAreRefused : Obligations.ReservedAndIllegalWordsAreRefused := by
  unfold Obligations.ReservedAndIllegalWordsAreRefused
  refine ⟨fun word => ?complement, ?count, fun s word rest hinbox hspells => ?refused⟩
  case complement =>
    rw [← Bool.not_eq_true, spellsCommand_iff]
    have := word.isLt
    omega
  case count => decide +kernel
  case refused => rw [step_of_cons hinbox, perform, runWord_of_not_spellsCommand hspells, State.refuse_eq]

/-! ### The bits of a field -/

/-- The bits of a number that fits 32 bits are the bits of its value. -/
theorem valueOfNat_getLsbD {n : Nat} (h : n < 2 ^ 32) (j : Nat) : (valueOfNat n).getLsbD j = n.testBit j := by
  rw [← BitVec.testBit_toNat, valueOfNat_toNat h]

/-- A field of a legal width fits the 32 bits of VAL. -/
theorem fieldValue_lt_word (buf : List Byte) (c : Nat) {w : Nat} (h : w ≤ 32) : fieldValue buf c w < 2 ^ 32 :=
  (fieldValue_lt buf c w).trans_le (Nat.pow_le_pow_right (by decide) h)

/-- No bit of a field stands at its width or above. -/
theorem fieldValue_testBit_of_le (buf : List Byte) (c : Nat) {w j : Nat} (h : w ≤ j) :
    (fieldValue buf c w).testBit j = false :=
  Nat.testBit_eq_false_of_lt ((fieldValue_lt buf c w).trans_le (Nat.pow_le_pow_right (by decide) h))

/-- Settles O15: the bits of the value are the bits of the sum of R111, which the reader's laws give. -/
theorem fieldIsABigEndianBitString : Obligations.FieldIsABigEndianBitString := by
  unfold Obligations.FieldIsABigEndianBitString
  refine ⟨fun buf c w hmin hmax hend => ?field, fun buf c hend => ?code⟩
  case field =>
    have hlt := fieldValue_lt_word buf c hmax
    refine ⟨valueOfNat (fieldValue buf c w), readBits_eq hmin hmax hend, fun k hk => ?_, fun j hj => ?_⟩
    · rw [valueOfNat_getLsbD hlt, fieldValue_testBit buf c w k hk]
    · rw [valueOfNat_getLsbD hlt, fieldValue_testBit_of_le buf c hj]
  case code =>
    rw [readBits_eq (by decide) (by decide) hend, ← valueOfCode_codeAt, valueOfCode]

end Sys2Proof.Machine
end

section
/-!
PROOFS. The family of 40_bitstream_reader.md: RDBITS, its checks in order and the field it reads (R110).
-/
namespace Sys2Proof.Machine

/-! ### The outcomes of RDBITS, beside the refusal of an illegal width -/

/-- R110's second check: RDBITS with a legal width is refused outside a pass. -/
theorem execRdbits_of_not_active {w : Code} {s : State} (hw : Instr.legalWidth w) (hphase : s.phase ≠ .active) :
    execRdbits w s = s.refuse := by
  rw [execRdbits, if_neg (not_not_intro hw), if_pos hphase]

/-- R110's third check: RDBITS past the end of the buffer faults (R115). -/
theorem execRdbits_of_exhausts {w : Code} {s : State} (hw : Instr.legalWidth w) (hphase : s.phase = .active)
    (hend : s.exhausts w) : execRdbits w s = s.raise .bufferExhausted := by
  rw [execRdbits, if_neg (not_not_intro hw), if_neg (not_not_intro hphase)]
  exact if_pos hend

/-- RDBITS of a field that lies within a readable buffer. -/
theorem execRdbits_of_readBits {w : Code} {s : State} {buf : List Byte} {v : Value} {c : Nat}
    (hw : Instr.legalWidth w) (hphase : s.phase = .active) (hend : ¬ s.exhausts w) (hbuf : s.buffer = some buf)
    (hread : readBits buf s.cur w.toNat = some (v, c)) :
    execRdbits w s = State.succeed { s with val := v, cur := c } v := by
  have hfield : (s.buffer.bind fun buf => readBits buf s.cur (fieldWidth w)) = some (v, c) := by
    rw [hbuf]
    exact hread
  rw [execRdbits, if_neg (not_not_intro hw), if_neg (not_not_intro hphase), hfield]
  exact if_neg hend

/-! ### The command word -/

/-- The word of RDBITS: group 01 above the width (30_encoding.md R88). -/
theorem encode_rdbits (w : Code) : encode (.rdbits w) = 0x40 ||| w.setWidth 8 := by
  revert w
  decide

/-- Settles O14: the three checks of R110, each by the outcome of RDBITS it selects; past them the invariant gives the
buffer, and the field lies within it. -/
theorem rdbitsReadsOneField : Obligations.RdbitsReadsOneField := by
  unfold Obligations.RdbitsReadsOneField
  refine ⟨encode_rdbits, fun s w hw => ?width, fun s w hmin hmax hphase => ?phase,
    fun s w hmin hmax hphase hend => ?exhausted, fun s w hinv hmin hmax hphase hend => ?field, by decide⟩
  case width =>
    refine execRdbits_of_illegalWidth (fun hlegal => ?_) s
    obtain ⟨hmin, hmax⟩ : 1 ≤ w.toNat ∧ w.toNat ≤ 32 := hlegal
    omega
  case phase => exact execRdbits_of_not_active ⟨hmin, hmax⟩ hphase
  case exhausted => exact execRdbits_of_exhausts ⟨hmin, hmax⟩ hphase hend
  case field =>
    obtain ⟨buf, hbuf, hlen⟩ := hinv.exists_buffer
    have hread := readBits_eq (buf := buf) hmin hmax (hlen ▸ hend)
    exact ⟨buf, _, hbuf, hread, execRdbits_of_readBits ⟨hmin, hmax⟩ hphase (Nat.not_lt.mpr hend) hbuf hread⟩

end Sys2Proof.Machine
end

section
/-!
PROOFS. The family of 41_alphabet_decoder.md: DEC1 and its outcomes (R135), the text of a whole pass (R139), LOOKUP
(R133).
-/
namespace Sys2Proof.Machine

/-! ### The outcomes of DEC1 -/

/-- R135's check: DEC1 is refused outside a pass. -/
theorem execDec1_of_not_active {s : State} (hphase : s.phase ≠ .active) : execDec1 s = s.refuse :=
  if_pos hphase

/-- DEC1 with a whole code left in a readable buffer decodes it; the text check of R138 passes, as it does for every
entry of the ROM. -/
theorem execDec1_of_more {s : State} {buf : List Byte} (hphase : s.phase = .active) (hmore : s.more = true)
    (hbuf : s.buffer = some buf) :
    execDec1 s = (s.withPass (s.pass.advance buf)).succeed (decodedDatum (rom (codeAt buf s.cur))) := by
  rw [execDec1, if_neg (not_not_intro hphase), if_pos hmore, hbuf]
  exact if_pos (validChar_rom _)

/-- DEC1 without a whole code left ends the pass (R136). -/
theorem execDec1_of_not_more {s : State} (hphase : s.phase = .active) (hmore : ¬ s.more = true) :
    execDec1 s = State.succeed { s with phase := .done } 0 := by
  rw [execDec1, if_neg (not_not_intro hphase), if_neg hmore]

/-! ### The code that DEC1 reads -/

/-- Reading 6 bits gives the code at the cursor, zero-extended (30_encoding.md R86). -/
theorem readBits_code {buf : List Byte} {c : Nat} (hend : c + 6 ≤ 8 * buf.length) :
    readBits buf c 6 = some ((codeAt buf c).setWidth 32, c + 6) :=
  fieldIsABigEndianBitString.2 buf c hend

/-- Bit 7 of every entry of the ROM is clear (41_alphabet_decoder.md R131 (f)). -/
theorem rom_getLsbD_seven (c : Code) : (rom c).getLsbD 7 = false := by
  simpa only [validChar, Bool.not_eq_true'] using validChar_rom c

/-- Settles O20: the outcomes of DEC1, by the phase and the bits that remain; with six of them left, the invariant gives
the buffer and the code lies within it. -/
theorem dec1DecodesOneCodeOrEndsThePass : Obligations.Dec1DecodesOneCodeOrEndsThePass := by
  unfold Obligations.Dec1DecodesOneCodeOrEndsThePass
  refine ⟨by decide, fun s hphase => execDec1_of_not_active hphase, fun s hinv hphase hrem => ?decodes,
    fun s hphase hrem => ?ends, by decide, by decide⟩
  case decodes =>
    obtain ⟨buf, hbuf, hlen⟩ := hinv.exists_buffer
    have hend : s.cur + 6 ≤ 8 * buf.length := by omega
    exact ⟨buf, _, codeAt buf s.cur, _, hbuf, readBits_code hend, rfl, rfl, rom_getLsbD_seven _,
      execDec1_of_more hphase (s.more_iff.mpr hrem) hbuf⟩
  case ends => exact execDec1_of_not_more hphase (s.more_iff.not.mpr (Nat.not_le.mpr hrem))

/-! ### The text of a whole pass -/

/-- Settles O21: the decode loop's law, an induction over its iterations, counts the codes read and names the character
of each. -/
theorem decodeStringClosedForm : Obligations.DecodeStringClosedForm := by
  unfold Obligations.DecodeStringClosedForm
  intro buf
  have hpass := decodePass_afterCodes buf
  exact ⟨hpass.out_length, hpass.out_get⟩

/-! ### LOOKUP -/

/-- The word of LOOKUP: group 10 above the index (30_encoding.md R88). -/
theorem encode_lookup (c : Code) : encode (.lookup c) = 0x80 ||| c.setWidth 8 := by
  revert c
  decide

/-- Settles O12: LOOKUP's one outcome, and the corner entries of R133. -/
theorem lookupAnswersTheRomEntry : Obligations.LookupAnswersTheRomEntry := by
  unfold Obligations.LookupAnswersTheRomEntry
  exact ⟨encode_lookup, fun s c => execLookup_eq c s, by decide, by decide, by decide, by decide⟩

end Sys2Proof.Machine
end

section
/-!
PROOFS. The family of 42_payload_framer.md: FRAME, its checks in order and the window it sets (R160).
-/
namespace Sys2Proof.Machine

/-! ### The length field -/

/-- The length field is its two bytes side by side, the high one first (30_encoding.md R85). -/
theorem lengthField_eq_append (hi lo : Byte) : lengthField hi lo = hi ++ lo := by
  rw [lengthField, BitVec.append_def, BitVec.shiftLeftZeroExtend_eq, BitVec.setWidth'_eq]

theorem lengthField_toNat (hi lo : Byte) : (lengthField hi lo).toNat = 256 * hi.toNat + lo.toNat := by
  rw [lengthField_eq_append, BitVec.toNat_append, ← Nat.shiftLeft_add_eq_or_of_lt lo.isLt, Nat.shiftLeft_eq,
    Nat.mul_comm]

/-! ### The outcomes of FRAME, beside the fault of a payload shorter than 14 bytes -/

/-- R160's first check: FRAME is refused during a pass. -/
theorem execFrame_of_active {s : State} (hphase : s.phase = .active) : execFrame s = s.refuse :=
  if_pos hphase

/-- Settles O29: the checks of R160, each by the outcome of FRAME it selects; from 14 bytes up the invariant gives the
two bytes of the length field, and their number decides between the fault and the window. -/
theorem frameSetsTheWindow : Obligations.FrameSetsTheWindow := by
  unfold Obligations.FrameSetsTheWindow
  refine ⟨by decide, fun s => execFrame_of_active, fun s => execFrame_of_short, fun s hinv hphase hlong => ?_⟩
  obtain ⟨hi, hhi⟩ := Option.isSome_iff_exists.mp (hinv.memRead_isSome (a := 12) (by omega))
  obtain ⟨lo, hlo⟩ := Option.isSome_iff_exists.mp (hinv.memRead_isSome (a := 13) (by omega))
  have hframe := execFrame_of_bytes hphase (Nat.not_lt.mpr hlong) hhi hlo
  rw [lengthField_toNat] at hframe
  refine ⟨hi, lo, _, hhi, hlo, rfl, fun hpast => ?past, fun hfits => ?fits⟩
  case past => exact hframe.trans (if_pos hpast)
  case fits => exact hframe.trans (if_neg (Nat.not_lt.mpr hfits))

end Sys2Proof.Machine
end

section
/-!
PROOFS. The family of 43_control.md: the closed list of refusals (R177), the phase table (R180), START (R175).
-/
namespace Sys2Proof.Machine

/-! ### Taking the input -/

/-- R37 does not speak of the inputs still to be taken. -/
theorem State.Inv.setInbox {s : State} (h : s.Inv) (rest : List Input) : { s with inbox := rest }.Inv :=
  { h with }

/-! ### The closed list of refusals -/

/-- The share of R177's list that speaks of decoded commands. -/
def State.refusesInstr (s : State) (i : Instr) : Prop :=
  match i with
  | .rdbits w => ¬ Instr.legalWidth w ∨ s.phase ≠ .active
  | .dec1 => s.phase ≠ .active
  | .frame => s.phase = .active
  | .start => False
  | .decode => False
  | .lookup _ => False

theorem State.refuses_command_ok {word : Byte} {i : Instr} (h : decodeWord word = .ok i) (s : State) :
    s.refuses (.command word) ↔ s.refusesInstr i := by
  cases i <;> simp only [State.refuses, h, State.refusesInstr]

theorem State.refuses_command_error {word : Byte} {e : DecodeError} (h : decodeWord word = .error e) (s : State) :
    s.refuses (.command word) := by
  simp only [State.refuses, h]

/-- A command with a reason on the list is refused. -/
theorem exec_of_refusesInstr {i : Instr} {s : State} (h : s.refusesInstr i) : exec i s = s.refuse := by
  cases i with
  | start | decode | lookup c => exact h.elim
  | frame => exact execFrame_of_active h
  | dec1 => exact execDec1_of_not_active h
  | rdbits w =>
    by_cases hw : Instr.legalWidth w
    · exact execRdbits_of_not_active hw (h.resolve_left (not_not_intro hw))
    · exact execRdbits_of_illegalWidth hw s

/-- A command without a reason on the list is answered otherwise, if it is answered. -/
theorem exec_reply_ne_refused {i : Instr} {s t : State} (hi : ¬ s.refusesInstr i) (h : exec i s = .next t)
    (d : Value) : t.reply ≠ .response .refused d := by
  cases i with
  | start =>
    obtain rfl := Host.Outcome.next.inj ((execStart_eq s).symm.trans h)
    simp
  | lookup c =>
    obtain rfl := Host.Outcome.next.inj ((execLookup_eq c s).symm.trans h)
    simp
  | decode =>
    obtain ⟨buf, -, rfl⟩ := execDecode_cases h
    simp
  | frame =>
    obtain ⟨hphase, -⟩ | ⟨-, -, rfl⟩ | ⟨-, -, rfl⟩ := execFrame_cases h
    · exact absurd hphase hi
    · simp
    · simp
  | dec1 =>
    obtain ⟨hphase, -⟩ | ⟨-, -, buf, -, rfl⟩ | ⟨-, -, rfl⟩ := execDec1_cases h
    · exact absurd hphase hi
    · simp
    · simp
  | rdbits w =>
    obtain ⟨hreason, -⟩ | ⟨-, -, -, rfl⟩ | ⟨-, -, -, buf, v, -, -, rfl⟩ := execRdbits_cases h
    · exact absurd hreason hi
    · simp
    · simp

/-- An input with a reason on the list is refused. -/
theorem perform_of_refuses {input : Input} {s : State} (h : s.refuses input) : perform input s = s.refuse := by
  cases input with
  | command word =>
    cases hword : decodeWord word with
    | error e => exact runWord_error hword s
    | ok i => exact (runWord_ok hword s).trans (exec_of_refusesInstr ((s.refuses_command_ok hword).mp h))
  | load bytes =>
    obtain ⟨-, hload⟩ | ⟨hphase, hlen, -⟩ := hostLoad_cases bytes s
    · exact hload
    · exact absurd h (not_or.mpr ⟨hphase, Nat.not_lt.mpr hlen⟩)
  | read | reset => exact h.elim

/-- An input without a reason on the list is answered otherwise, if it is answered. -/
theorem perform_reply_ne_refused {input : Input} {s t : State} (hi : ¬ s.refuses input)
    (h : perform input s = .next t) (d : Value) : t.reply ≠ .response .refused d := by
  cases input with
  | command word =>
    cases hword : decodeWord word with
    | error e => exact absurd (s.refuses_command_error hword) hi
    | ok i => exact exec_reply_ne_refused ((s.refuses_command_ok hword).not.mp hi) ((runWord_ok hword s).symm.trans h) d
  | load bytes =>
    obtain ⟨hreason, -⟩ | ⟨-, -, hload⟩ := hostLoad_cases bytes s
    · exact absurd hreason hi
    · obtain rfl := Host.Outcome.next.inj (hload.symm.trans h)
      simp
  | read | reset =>
    obtain rfl := Host.Outcome.next.inj h
    simp [State.reset]

/-- Settles O37: what each input answers with and without a reason on the list, which taking it from the inbox does not
touch. -/
theorem refusalHasAReasonAndChangesNothing : Obligations.RefusalHasAReasonAndChangesNothing := by
  unfold Obligations.RefusalHasAReasonAndChangesNothing
  intro s input rest hinbox
  rw [step_of_cons hinbox]
  exact ⟨fun h => perform_of_refuses (s := { s with inbox := rest }) h,
    fun h t d ht => perform_reply_ne_refused (s := { s with inbox := rest }) h ht d⟩

/-! ### Every input has a next state -/

theorem execDec1_exists_next {s : State} (hinv : s.Inv) : ∃ t, execDec1 s = .next t := by
  by_cases hphase : s.phase = .active
  · by_cases hmore : s.more = true
    · obtain ⟨buf, hbuf, -⟩ := hinv.exists_buffer
      exact ⟨_, execDec1_of_more hphase hmore hbuf⟩
    · exact ⟨_, execDec1_of_not_more hphase hmore⟩
  · exact ⟨_, execDec1_of_not_active hphase⟩

theorem execRdbits_exists_next (w : Code) {s : State} (hinv : s.Inv) : ∃ t, execRdbits w s = .next t := by
  by_cases hreason : s.refusesInstr (.rdbits w)
  · exact ⟨_, exec_of_refusesInstr hreason⟩
  · obtain ⟨hw, hphase⟩ := not_or.mp hreason
    rw [not_not] at hw hphase
    by_cases hend : s.exhausts w
    · exact ⟨_, execRdbits_of_exhausts hw hphase hend⟩
    · obtain ⟨buf, hbuf, hlen⟩ := hinv.exists_buffer
      have hread := readBits_eq (buf := buf) (c := s.cur) hw.1 hw.2 (hlen ▸ Nat.not_lt.mp hend)
      exact ⟨_, execRdbits_of_readBits hw hphase hend hbuf hread⟩

theorem execFrame_exists_next {s : State} (hinv : s.Inv) : ∃ t, execFrame s = .next t := by
  by_cases hphase : s.phase = .active
  · exact ⟨_, execFrame_of_active hphase⟩
  by_cases hshort : s.rawLen < 14
  · exact ⟨_, execFrame_of_short hphase hshort⟩
  obtain ⟨hi, hhi⟩ := Option.isSome_iff_exists.mp (hinv.memRead_isSome (a := 12) (by omega))
  obtain ⟨lo, hlo⟩ := Option.isSome_iff_exists.mp (hinv.memRead_isSome (a := 13) (by omega))
  rw [execFrame_of_bytes hphase hshort hhi hlo]
  split
  · exact ⟨_, rfl⟩
  · exact ⟨_, rfl⟩

/-- From every state of the invariant every command has a next state (20_memory.md R63). -/
theorem exec_exists_next (i : Instr) {s : State} (hinv : s.Inv) : ∃ t, exec i s = .next t := by
  cases i with
  | start => exact ⟨_, execStart_eq s⟩
  | lookup c => exact ⟨_, execLookup_eq c s⟩
  | decode =>
    obtain ⟨buf, hbuf, -⟩ := hinv.exists_buffer
    exact ⟨_, execDecode_eq hbuf⟩
  | frame => exact execFrame_exists_next hinv
  | dec1 => exact execDec1_exists_next hinv
  | rdbits w => exact execRdbits_exists_next w hinv

/-- From every state of the invariant every input has a next state. -/
theorem perform_exists_next (input : Input) {s : State} (hinv : s.Inv) : ∃ t, perform input s = .next t := by
  cases input with
  | command word =>
    cases hword : decodeWord word with
    | error e => exact ⟨_, runWord_error hword s⟩
    | ok i =>
      rw [perform, runWord_ok hword]
      exact exec_exists_next i hinv
  | load bytes =>
    obtain ⟨-, hload⟩ | ⟨-, -, hload⟩ := hostLoad_cases bytes s
    · exact ⟨_, hload⟩
    · exact ⟨_, hload⟩
  | read | reset => exact ⟨_, rfl⟩

/-! ### The phase table -/

/-- The table does not speak of the inputs still to be taken. -/
theorem State.phaseAfter_setInbox (s : State) (rest : List Input) (i : Instr) :
    { s with inbox := rest }.phaseAfter i = s.phaseAfter i := by
  cases i <;> rfl

/-- Every command that is answered leaves the phase of the table's entry (43_control.md R180). -/
theorem exec_phase {i : Instr} {s t : State} (h : exec i s = .next t) : t.phase = s.phaseAfter i := by
  cases i with
  | start =>
    obtain rfl := Host.Outcome.next.inj ((execStart_eq s).symm.trans h)
    rfl
  | lookup c =>
    obtain rfl := Host.Outcome.next.inj ((execLookup_eq c s).symm.trans h)
    rfl
  | decode =>
    obtain ⟨buf, -, rfl⟩ := execDecode_cases h
    rfl
  | frame =>
    obtain ⟨hphase, rfl⟩ | ⟨hphase, hfails, rfl⟩ | ⟨hphase, hfits, rfl⟩ := execFrame_cases h
    · simp [State.phaseAfter, hphase]
    · simp [State.phaseAfter, hphase, hfails]
    · have hfits : ¬ s.framingFails := by omega
      simp [State.phaseAfter, hphase, hfits]
  | dec1 =>
    obtain ⟨hphase, rfl⟩ | ⟨hphase, hrem, buf, -, rfl⟩ | ⟨hphase, hrem, rfl⟩ := execDec1_cases h
    · simp [State.phaseAfter, hphase]
    · simp [State.phaseAfter, hphase, hrem]
    · simp [State.phaseAfter, hphase, Nat.not_le.mpr hrem]
  | rdbits w =>
    obtain ⟨hreason, rfl⟩ | ⟨hw, hphase, hend, rfl⟩ | ⟨hw, hphase, hend, buf, v, -, -, rfl⟩ := execRdbits_cases h
    · have hnot : ¬ (s.phase = .active ∧ Instr.legalWidth w) := fun ⟨hphase, hw⟩ =>
        hreason.elim (not_not_intro hw) (not_not_intro hphase)
      rw [State.phaseAfter, if_neg hnot, State.answer_phase]
    · rw [State.phaseAfter, if_pos ⟨hphase, hw⟩, if_pos hend]
      rfl
    · rw [State.phaseAfter, if_pos ⟨hphase, hw⟩, if_neg (Nat.not_lt.mpr hend)]
      exact hphase

/-- LOAD's column of the table (43_control.md R178, R180). -/
theorem hostLoad_phase {bytes : List Byte} {s t : State} (h : hostLoad bytes s = .next t) :
    t.phase = if s.phase = .active ∨ bytes.length > s.rawMax then s.phase else .idle := by
  obtain ⟨hreason, hload⟩ | ⟨hphase, hlen, hload⟩ := hostLoad_cases bytes s
  · obtain rfl := Host.Outcome.next.inj (hload.symm.trans h)
    rw [if_pos hreason, State.answer_phase]
  · obtain rfl := Host.Outcome.next.inj (hload.symm.trans h)
    rw [if_neg (not_or.mpr ⟨hphase, Nat.not_lt.mpr hlen⟩)]

/-- Settles O38: the invariant gives the next state, R177's list the refused entries, and each input its phase. -/
theorem phaseTable : Obligations.PhaseTable := by
  unfold Obligations.PhaseTable
  intro s input rest hinv hinbox
  obtain ⟨t, ht⟩ := perform_exists_next input (hinv.setInbox rest)
  have hstep : step s = .next t := (step_of_cons hinbox).trans ht
  obtain ⟨hrefused, hanswered⟩ := refusalHasAReasonAndChangesNothing s input rest hinbox
  refine ⟨t, hstep, ⟨fun hreply => ?reason, fun hreason => ?refusal⟩, ?phase⟩
  case reason => exact by_contra fun hnot => hanswered hnot t 0 hstep hreply
  case refusal =>
    obtain rfl := Host.Outcome.next.inj ((hrefused hreason).symm.trans hstep)
    rfl
  case phase =>
    cases input with
    | command word =>
      cases hword : decodeWord word with
      | error e =>
        obtain rfl := Host.Outcome.next.inj ((runWord_error hword _).symm.trans ht)
        simp only [hword, State.answer_phase]
      | ok i =>
        have hphase := exec_phase ((runWord_ok hword _).symm.trans ht)
        simpa only [hword, State.phaseAfter_setInbox] using hphase
    | load bytes => exact hostLoad_phase (s := { s with inbox := rest }) ht
    | read | reset =>
      obtain rfl := Host.Outcome.next.inj ht
      rfl

/-! ### START -/

/-- Settles O11: START's one outcome. -/
theorem startOpensAPass : Obligations.StartOpensAPass := by
  unfold Obligations.StartOpensAPass
  exact ⟨by decide, fun s => execStart_eq s⟩

end Sys2Proof.Machine
end

section
/-!
PROOFS. The family of 60_exceptions.md: the fault entry (R196), the ways out of a fault (R198), the faulted attempt
(R199).
-/
namespace Sys2Proof

/-! ### The word a command was decoded from -/

/-- The two fields make up the whole word (30_encoding.md R87). -/
theorem commandWord_fields (word : Byte) : commandWord (wordGroup word) (wordArg word) = word := by
  revert word
  decide

/-- The fields of a command are those of the word it was decoded from. -/
theorem fields_of_decodeWord {word : Byte} {i : Instr} (h : decodeWord word = .ok i) :
    i.group = wordGroup word ∧ i.arg = wordArg word := by
  unfold decodeWord at h
  split_ifs at h with hcontrol harg harg harg harg hrdbits hlookup <;> cases h
  · exact ⟨hcontrol.symm, harg.symm⟩
  · exact ⟨hcontrol.symm, harg.symm⟩
  · exact ⟨hcontrol.symm, harg.symm⟩
  · exact ⟨hcontrol.symm, harg.symm⟩
  · exact ⟨hrdbits.symm, rfl⟩
  · exact ⟨hlookup.symm, rfl⟩

/-- Only the command's own word decodes to it (30_encoding.md R88). -/
theorem encode_of_decodeWord {word : Byte} {i : Instr} (h : decodeWord word = .ok i) : encode i = word := by
  obtain ⟨hgroup, harg⟩ := fields_of_decodeWord h
  rw [encode, hgroup, harg, commandWord_fields]

end Sys2Proof

namespace Sys2Proof.Machine

/-! ### The fault entry -/

/-- Only FRAME and RDBITS answer FAULT, each through the fault entry with its own code (60_exceptions.md R190 to R193,
R196). -/
theorem exec_fault_cases {i : Instr} {s t : State} {d : Value} (h : exec i s = .next t)
    (hreply : t.reply = .response .fault d) :
    (i = .frame ∧ t = (s.enterFault .framing).answer .fault 1) ∨
    (∃ w, i = .rdbits w ∧ t = (s.enterFault .bufferExhausted).answer .fault 2) := by
  cases i with
  | start =>
    obtain rfl := Host.Outcome.next.inj ((execStart_eq s).symm.trans h)
    simp at hreply
  | lookup c =>
    obtain rfl := Host.Outcome.next.inj ((execLookup_eq c s).symm.trans h)
    simp at hreply
  | decode =>
    obtain ⟨buf, -, rfl⟩ := execDecode_cases h
    simp at hreply
  | dec1 =>
    obtain ⟨-, rfl⟩ | ⟨-, -, buf, -, rfl⟩ | ⟨-, -, rfl⟩ := execDec1_cases h
    · simp at hreply
    · simp at hreply
    · simp at hreply
  | frame =>
    obtain ⟨-, rfl⟩ | ⟨-, -, ht⟩ | ⟨-, -, rfl⟩ := execFrame_cases h
    · simp at hreply
    · exact .inl ⟨rfl, ht⟩
    · simp at hreply
  | rdbits w =>
    obtain ⟨-, rfl⟩ | ⟨-, -, -, ht⟩ | ⟨-, -, -, buf, v, -, -, rfl⟩ := execRdbits_cases h
    · simp at hreply
    · exact .inr ⟨w, rfl, ht⟩
    · simp at hreply

/-- Settles O35: the two commands that answer FAULT, and what the fault entry writes for each. -/
theorem faultEntryIsPrecise : Obligations.FaultEntryIsPrecise := by
  unfold Obligations.FaultEntryIsPrecise
  refine ⟨fun s f => rfl, fun i s t d h hreply => ?_⟩
  obtain ⟨-, rfl⟩ | ⟨w, -, rfl⟩ := exec_fault_cases h hreply
  · obtain ⟨-, rfl⟩ := Reply.response.inj hreply
    exact ⟨.framing, by decide, rfl, rfl⟩
  · obtain ⟨-, rfl⟩ := Reply.response.inj hreply
    exact ⟨.bufferExhausted, by decide, rfl, rfl⟩

/-! ### FRAME outside a pass, under the invariant -/

/-- R160's fault, whichever of its two checks fires: the invariant gives the bytes of the length field. -/
theorem execFrame_of_framingFails {s : State} (hinv : s.Inv) (hphase : s.phase ≠ .active) (hfails : s.framingFails) :
    execFrame s = s.raise .framing := by
  obtain ⟨t, ht⟩ := execFrame_exists_next hinv
  obtain ⟨hactive, -⟩ | ⟨-, -, rfl⟩ | ⟨-, hfits, -⟩ := execFrame_cases ht
  · exact absurd hactive hphase
  · exact ht
  · omega

/-- R160's effect, past all its checks. -/
theorem execFrame_of_not_framingFails {s : State} (hinv : s.Inv) (hphase : s.phase ≠ .active)
    (hfits : ¬ s.framingFails) : execFrame s =
      .next (((s.setWindow 14 s.frameLength).beginAttempt .idle).answer .ok (valueOfNat s.frameLength)) := by
  obtain ⟨t, ht⟩ := execFrame_exists_next hinv
  obtain ⟨hactive, -⟩ | ⟨-, hfails, -⟩ | ⟨-, -, rfl⟩ := execFrame_cases ht
  · exact absurd hactive hphase
  · exact absurd hfails hfits
  · exact ht

/-! ### The ways out of a fault -/

theorem State.phase_ne_active_of_fault {s : State} (hphase : s.phase = .fault) : s.phase ≠ .active := by
  rw [hphase]
  decide

/-- The commands whose entry in the row FAULT of the phase table is another phase (43_control.md R180). -/
theorem State.command_of_phaseAfter_ne_fault {s : State} {i : Instr} (hphase : s.phase = .fault)
    (h : s.phaseAfter i ≠ .fault) : i = .start ∨ i = .decode ∨ (i = .frame ∧ ¬ s.framingFails) := by
  have hactive := State.phase_ne_active_of_fault hphase
  cases i with
  | start => exact .inl rfl
  | decode => exact .inr (.inl rfl)
  | frame =>
    rw [State.phaseAfter, if_neg hactive] at h
    exact .inr (.inr ⟨rfl, fun hfails => h (if_pos hfails)⟩)
  | lookup c => exact absurd hphase h
  | dec1 =>
    rw [State.phaseAfter, if_neg hactive] at h
    exact absurd hphase h
  | rdbits w =>
    rw [State.phaseAfter, if_neg fun hlegal => hactive hlegal.1] at h
    exact absurd hphase h

/-- Settles O40: the new attempts by the one outcome each has in FAULT; that nothing else leaves it is read off the
phase table. -/
theorem faultIsLeftByANewAttempt : Obligations.FaultIsLeftByANewAttempt := by
  unfold Obligations.FaultIsLeftByANewAttempt
  intro s hinv hphase
  have hactive := State.phase_ne_active_of_fault hphase
  refine ⟨⟨_, execStart_eq s, rfl, rfl, rfl, rfl⟩, ?decode,
    fun hfits => ⟨_, execFrame_of_not_framingFails hinv hactive hfits, rfl, rfl⟩,
    fun hfails => ⟨_, execFrame_of_framingFails hinv hactive hfails, rfl, rfl⟩, fun bytes hlen => ?load,
    ⟨_, rfl, rfl, rfl⟩, fun input rest t hinbox hstep hleft => ?others⟩
  case decode =>
    obtain ⟨buf, hbuf, -⟩ := hinv.exists_buffer
    exact ⟨_, execDecode_eq hbuf, rfl, rfl, rfl, rfl⟩
  case load =>
    obtain ⟨hreason, -⟩ | ⟨-, -, hload⟩ := hostLoad_cases bytes s
    · exact absurd hreason (not_or.mpr ⟨hactive, Nat.not_lt.mpr hlen⟩)
    · exact ⟨_, hload, rfl, rfl⟩
  case others =>
    obtain ⟨t', hstep', -, hrow⟩ := phaseTable s input rest hinv hinbox
    obtain rfl := Host.Outcome.next.inj (hstep'.symm.trans hstep)
    cases input with
    | command word =>
      cases hword : decodeWord word with
      | error e =>
        simp only [hword] at hrow
        exact absurd (hrow.trans hphase) hleft
      | ok i =>
        simp only [hword] at hrow
        obtain rfl := encode_of_decodeWord hword
        obtain rfl | rfl | ⟨rfl, hfits⟩ := State.command_of_phaseAfter_ne_fault hphase (hrow ▸ hleft)
        · exact .inl rfl
        · exact .inr (.inl rfl)
        · exact .inr (.inr (.inl ⟨rfl, hfits⟩))
    | load bytes =>
      by_cases hlen : bytes.length ≤ s.rawMax
      · exact .inr (.inr (.inr (.inl ⟨bytes, rfl, hlen⟩)))
      · exact absurd ((hrow.trans (if_pos (.inr (Nat.lt_of_not_le hlen)))).trans hphase) hleft
    | read => exact absurd (hrow.trans hphase) hleft
    | reset => exact .inr (.inr (.inr (.inr rfl)))

/-! ### The faulted attempt -/

/-- In FAULT the fault entry has only ERR left to write: PHASE stands and OUT is empty (10_state.md R37 (f)). -/
theorem State.Inv.enterFault_of_fault {s : State} (hinv : s.Inv) (hphase : s.phase = .fault) (f : ErrCode) :
    s.enterFault f = { s with err := f } := by
  rw [State.enterFault, ← hphase, ← hinv.fault_out hphase]

/-- Settles O41: DEC1 and RDBITS meet their reason on R177's list, LOOKUP, READ and DECODE have one outcome each, and
the fault entry of a failing FRAME has only ERR left to write. -/
theorem faultedAttemptStandsStill : Obligations.FaultedAttemptStandsStill := by
  unfold Obligations.FaultedAttemptStandsStill
  intro s hphase
  have hactive := State.phase_ne_active_of_fault hphase
  refine ⟨exec_of_refusesInstr (i := .dec1) hactive, fun w => exec_of_refusesInstr (i := .rdbits w) (.inr hactive),
    fun c => execLookup_eq c s, rfl, fun t ht => ?decode, fun hinv hfails => ?frame⟩
  case decode =>
    obtain ⟨buf, -, rfl⟩ := execDecode_cases ht
    rfl
  case frame =>
    calc exec .frame s = s.raise .framing := execFrame_of_framingFails hinv hactive hfails
      _ = .next { s with err := .framing, reply := .response .fault 1 } := by
        rw [State.raise, hinv.enterFault_of_fault hphase]
        rfl

end Sys2Proof.Machine
end

section
/-!
PROOFS. The family of 70_reset_and_hazards.md: what a reset leaves (R220).
-/
namespace Sys2Proof.Machine

/-- A pending reset leaves the power-on state, but for the inputs still to take and RAW_MAX, which are no registers of
the block (70_reset_and_hazards.md R220; log 14). -/
theorem step_of_reset {s : State} {rest : List Input} (h : s.inbox = .reset :: rest) :
    step s = .next { State.reset with inbox := rest, rawMax := s.rawMax } := by
  rw [step_of_cons h, perform, platformReset]

/-- Settles O8: reset's one outcome, whose registers are those of the power-on state. -/
theorem resetSetsEveryRegister : Obligations.ResetSetsEveryRegister := by
  unfold Obligations.ResetSetsEveryRegister
  refine ⟨fun s rest hinbox => ?asserted, ?powerOn⟩
  case asserted => exact ⟨_, step_of_reset hinbox, rfl, rfl, rfl, rfl, rfl, rfl, rfl, rfl⟩
  case powerOn => exact ⟨rfl, rfl, rfl, rfl, rfl, rfl, rfl, rfl⟩

end Sys2Proof.Machine
end

section
/-!
PROOFS. The command word, second part: decoder and encoder agree (30_encoding.md R87, R88), the opcode map by numeric
ranges, the words of the vector table, and the step that runs a command word (43_control.md R183).
-/
namespace Sys2Proof

/-! ### Decoder and encoder -/

/-- The encoded word of every command holds the command's two fields (30_encoding.md R88). -/
theorem fields_of_encode (i : Instr) : wordGroup (encode i) = i.group ∧ wordArg (encode i) = i.arg := by
  cases i with
  | start => exact Laws.EncodeFields.start
  | frame => exact Laws.EncodeFields.frame
  | decode => exact Laws.EncodeFields.decode
  | dec1 => exact Laws.EncodeFields.dec1
  | rdbits w => exact Laws.EncodeFields.rdbits w
  | lookup c => exact Laws.EncodeFields.lookup c

theorem decodeWord_encode (i : Instr) : decodeWord (encode i) = .ok i := by
  obtain ⟨hgroup, harg⟩ := fields_of_encode i
  rw [decodeWord, hgroup, harg]
  cases i with
  | start | frame | decode | dec1 | rdbits w | lookup c => rfl

/-- A word decodes to a command exactly when it is the command's own word. -/
theorem decodeWord_eq_ok_iff (word : Byte) (i : Instr) : decodeWord word = .ok i ↔ encode i = word :=
  ⟨encode_of_decodeWord, fun h => h ▸ decodeWord_encode i⟩

/-- Every command is one byte long, and the bytes after it are left (30_encoding.md R87, R93). -/
theorem decode_cons_eq_ok_iff (word : Byte) (bytes rest : List Byte) (i : Instr) :
    decode (word :: bytes) = .ok (i, rest) ↔ decodeWord word = .ok i ∧ bytes = rest := by
  rw [decode]
  cases decodeWord word with
  | error e => simp
  | ok j => simp

/-- Settles O3: a word decodes to a command exactly when it is the command's own, and `decode` takes one word off. -/
theorem decodeAndEncodeAgree : Obligations.DecodeAndEncodeAgree := by
  unfold Obligations.DecodeAndEncodeAgree
  refine ⟨fun i rest => (decode_cons_eq_ok_iff _ _ _ _).mpr ⟨decodeWord_encode i, rfl⟩, fun bytes i rest h => ?_⟩
  cases bytes with
  | nil => cases h
  | cons word bytes =>
    obtain ⟨hword, rfl⟩ := (decode_cons_eq_ok_iff _ _ _ _).mp h
    rw [encode_of_decodeWord hword]

/-! ### The opcode map by numeric ranges -/

theorem encode_toNat (i : Instr) : (encode i).toNat = 64 * i.group.toNat + i.arg.toNat := by
  have harg := i.arg.isLt
  rw [encode, commandWord, BitVec.toNat_append, ← Nat.shiftLeft_add_eq_or_of_lt harg, Nat.shiftLeft_eq, Nat.mul_comm]

/-- A word decodes to the command whose two fields make up its number. -/
theorem decodeWord_eq_ok_of_toNat {word : Byte} {i : Instr} (h : word.toNat = 64 * i.group.toNat + i.arg.toNat) :
    decodeWord word = .ok i :=
  (decodeWord_eq_ok_iff word i).mpr (BitVec.eq_of_toNat_eq ((encode_toNat i).trans h.symm))

/-- The two reserved ranges (30_encoding.md R91). -/
theorem decodeWord_of_reserved {word : Byte}
    (h : (0x04 ≤ word.toNat ∧ word.toNat ≤ 0x3F) ∨ 0xC0 ≤ word.toNat) :
    decodeWord word = .error (.reserved word) := by
  unfold decodeWord
  simp only [wordGroup_eq_iff, wordArg_eq_iff, BitVec.reduceToNat]
  split_ifs
  any_goals omega
  all_goals rfl

/-- Settles O2: along the ranges, each word is the number its command's fields make up, or it is reserved. -/
theorem opcodeMapAccountsForEveryWord : Obligations.OpcodeMapAccountsForEveryWord := by
  unfold Obligations.OpcodeMapAccountsForEveryWord
  intro word
  have := word.isLt
  split_ifs with hstart hframe hdecode hdec1 hcontrol hrdbits hlookup
  · exact decodeWord_eq_ok_of_toNat hstart
  · exact decodeWord_eq_ok_of_toNat hframe
  · exact decodeWord_eq_ok_of_toNat hdecode
  · exact decodeWord_eq_ok_of_toNat hdec1
  · exact decodeWord_of_reserved (by omega)
  · refine decodeWord_eq_ok_of_toNat ?_
    simp only [Instr.group, Instr.arg, BitVec.reduceToNat, BitVec.toNat_ofNat]
    omega
  · refine decodeWord_eq_ok_of_toNat ?_
    simp only [Instr.group, Instr.arg, BitVec.reduceToNat, BitVec.toNat_ofNat]
    omega
  · exact decodeWord_of_reserved (by omega)

/-- Settles O1: each word of the vector table, decoded. -/
theorem sampleWordsDecode : Obligations.SampleWordsDecode := by
  unfold Obligations.SampleWordsDecode
  decide

end Sys2Proof

namespace Sys2Proof.Machine

/-- Settles O5: a step performs the oldest input, here a command word, which either decodes or is refused. -/
theorem stepRunsTheDecodedCommand : Obligations.StepRunsTheDecodedCommand := by
  unfold Obligations.StepRunsTheDecodedCommand
  intro s word rest hinbox
  rw [step_of_cons hinbox, perform]
  exact ⟨fun i hword => runWord_ok hword _, fun e hword => runWord_error hword _⟩

end Sys2Proof.Machine
end

section
/-!
PROOFS. What a command can do, said once for all six of them, and what follows from it: the frames of 10_state.md R36,
the moves of the cursor (R24), the faults of 60_exceptions.md section 1.
-/
namespace Sys2Proof.Machine

/-! ### The effects of the commands -/

/-- The next states a command can answer with, by the row of its rule that applies. -/
inductive State.Effect (s : State) : Instr → State → Prop where
  /-- A reason of R177's list applies. -/
  | refused {i : Instr} (hreason : s.refusesInstr i) : Effect s i (s.answer .refused 0)
  /-- START (43_control.md R175). -/
  | opened : Effect s .start ((s.beginAttempt .active).answer .ok 0)
  /-- LOOKUP (41_alphabet_decoder.md R133). -/
  | lookedUp (c : Code) : Effect s (.lookup c) (s.answer .ok (valueOfByte (rom c)))
  /-- DECODE (41_alphabet_decoder.md R140). -/
  | decoded {buf : List Byte} (hbuf : s.buffer = some buf) :
    Effect s .decode
      (((s.beginAttempt .done).withPass (decodePass buf)).answer .ok (countDatum (decodePass buf).out.length))
  /-- DEC1 with a whole code left (41_alphabet_decoder.md R135). -/
  | advanced {buf : List Byte} (hphase : s.phase = .active) (hrem : 6 ≤ 8 * s.len - s.cur)
    (hbuf : s.buffer = some buf) :
    Effect s .dec1 ((s.withPass (s.pass.advance buf)).answer .ok (decodedDatum (rom (codeAt buf s.cur))))
  /-- DEC1 without a whole code left (41_alphabet_decoder.md R136). -/
  | ended (hphase : s.phase = .active) (hrem : 8 * s.len - s.cur < 6) :
    Effect s .dec1 { s with phase := .done, reply := .response .ok 0 }
  /-- FRAME whose segment exceeds the payload (42_payload_framer.md R163, R164). -/
  | misframed (hphase : s.phase ≠ .active) (hfails : s.framingFails) :
    Effect s .frame ((s.enterFault .framing).answer .fault 1)
  /-- FRAME whose segment lies in the payload (42_payload_framer.md R160). -/
  | framed (hphase : s.phase ≠ .active) (hfits : 14 + s.frameLength ≤ s.rawLen) :
    Effect s .frame
      (((s.setWindow 14 s.frameLength).beginAttempt .idle).answer .ok (valueOfNat s.frameLength))
  /-- RDBITS past the end of the buffer (40_bitstream_reader.md R115). -/
  | exhausted {w : Code} (hphase : s.phase = .active) (hend : s.exhausts w) :
    Effect s (.rdbits w) ((s.enterFault .bufferExhausted).answer .fault 2)
  /-- RDBITS of a field within the buffer (40_bitstream_reader.md R110). -/
  | readField {w : Code} {v : Value} (hphase : s.phase = .active) (hend : s.cur + w.toNat ≤ 8 * s.len) :
    Effect s (.rdbits w) { s with val := v, cur := s.cur + w.toNat, reply := .response .ok v }

/-- Every next state a command answers with is one of its effects. -/
theorem exec_effect {i : Instr} {s t : State} (h : exec i s = .next t) : s.Effect i t := by
  cases i with
  | start =>
    obtain rfl := Host.Outcome.next.inj ((execStart_eq s).symm.trans h)
    exact .opened
  | lookup c =>
    obtain rfl := Host.Outcome.next.inj ((execLookup_eq c s).symm.trans h)
    exact .lookedUp c
  | decode =>
    obtain ⟨buf, hbuf, rfl⟩ := execDecode_cases h
    exact .decoded hbuf
  | dec1 =>
    obtain ⟨hphase, rfl⟩ | ⟨hphase, hrem, buf, hbuf, rfl⟩ | ⟨hphase, hrem, rfl⟩ := execDec1_cases h
    · exact .refused hphase
    · exact .advanced hphase hrem hbuf
    · exact .ended hphase hrem
  | frame =>
    obtain ⟨hphase, rfl⟩ | ⟨hphase, hfails, rfl⟩ | ⟨hphase, hfits, rfl⟩ := execFrame_cases h
    · exact .refused hphase
    · exact .misframed hphase hfails
    · exact .framed hphase hfits
  | rdbits w =>
    obtain ⟨hreason, rfl⟩ | ⟨-, hphase, hend, rfl⟩ | ⟨-, hphase, hend, buf, v, -, -, rfl⟩ := execRdbits_cases h
    · exact .refused hreason
    · exact .exhausted hphase hend
    · exact .readField hphase hend

/-! ### What commands leave unchanged -/

/-- No command stores a byte, takes an input or sets RAW_MAX (10_state.md R36). -/
theorem exec_keeps_memory_and_inbox {i : Instr} {s t : State} (h : exec i s = .next t) :
    t.mem = s.mem ∧ t.rawLen = s.rawLen ∧ t.inbox = s.inbox ∧ t.rawMax = s.rawMax := by
  cases exec_effect h <;> exact ⟨rfl, rfl, rfl, rfl⟩

/-- No command but FRAME sets the window (10_state.md R36). -/
theorem exec_keeps_window {i : Instr} {s t : State} (h : exec i s = .next t) (hi : i ≠ .frame) :
    t.base = s.base ∧ t.len = s.len := by
  cases exec_effect h with
  | misframed | framed => exact absurd rfl hi
  | refused | opened | lookedUp | decoded | advanced | ended | exhausted | readField => exact ⟨rfl, rfl⟩

/-- No command but FRAME changes what the buffer holds. -/
theorem exec_keeps_buffer {i : Instr} {s t : State} (h : exec i s = .next t) (hi : i ≠ .frame) :
    t.buffer = s.buffer := by
  obtain ⟨hmem, hraw, -, -⟩ := exec_keeps_memory_and_inbox h
  obtain ⟨hbase, hlen⟩ := exec_keeps_window h hi
  exact State.buffer_congr hmem hraw hbase hlen

/-- Settles O42: the memory, the inbox and the window by their own lemmas; the rows of the single commands by their
effects. -/
theorem commandsLeaveTheRestUnchanged : Obligations.CommandsLeaveTheRestUnchanged := by
  unfold Obligations.CommandsLeaveTheRestUnchanged
  intro i s t h
  obtain ⟨hmem, hraw, hinbox, hmax⟩ := exec_keeps_memory_and_inbox h
  refine ⟨State.memRead_congr hmem hraw, hmem, hraw, hinbox, hmax, exec_keeps_window h, ?_⟩
  cases exec_effect h with
  | opened | decoded => trivial
  | lookedUp c => exact ⟨rfl, rfl, rfl, rfl, rfl⟩
  | advanced => exact ⟨rfl, .inr rfl⟩
  | ended => exact ⟨rfl, .inl ⟨rfl, rfl, rfl⟩⟩
  | misframed => exact fun _ => ⟨rfl, rfl, rfl, rfl⟩
  | framed => simp
  | exhausted => exact .inr ⟨rfl, rfl, rfl⟩
  | readField => exact .inl ⟨rfl, rfl, rfl⟩
  | refused hreason =>
    cases i with
    | start | decode | lookup c => exact hreason.elim
    | frame => exact fun _ => ⟨rfl, rfl, rfl, rfl⟩
    | dec1 => exact ⟨rfl, .inr rfl⟩
    | rdbits w => exact .inl ⟨rfl, rfl, rfl⟩

/-! ### The cursor -/

/-- A full pass ends after the last complete code (41_alphabet_decoder.md R141). -/
theorem decodePass_cur (buf : List Byte) : (decodePass buf).cur = 6 * (8 * buf.length / 6) :=
  (decodePass_afterCodes buf).cur

/-- Settles O44: the cursor of each effect. -/
theorem cursorMovesByTheWidthRead : Obligations.CursorMovesByTheWidthRead := by
  unfold Obligations.CursorMovesByTheWidthRead
  intro i s t h
  cases exec_effect h with
  | opened | lookedUp => rfl
  | decoded hbuf =>
    rw [← State.buffer_length hbuf]
    exact decodePass_cur _
  | advanced => exact .inr ⟨rfl, by simp⟩
  | ended => exact .inl ⟨rfl, rfl⟩
  | misframed => exact .inr ⟨rfl, .inl rfl⟩
  | framed => exact .inl rfl
  | exhausted => exact .inl rfl
  | readField => exact .inr ⟨rfl, rfl⟩
  | refused hreason =>
    cases i with
    | start | decode | lookup c => exact hreason.elim
    | frame => exact .inr ⟨rfl, .inr hreason⟩
    | dec1 => exact .inl ⟨rfl, rfl⟩
    | rdbits w => exact .inl rfl

/-! ### The faults -/

/-- Settles O36: the two commands that answer FAULT, each with its own code. -/
theorem eachFaultHasOneCommand : Obligations.EachFaultHasOneCommand := by
  unfold Obligations.EachFaultHasOneCommand
  intro i s t d h hreply
  obtain ⟨rfl, rfl⟩ | ⟨w, rfl, rfl⟩ := exec_fault_cases h hreply
  · exact .inl ⟨rfl, rfl⟩
  · exact .inr ⟨w, rfl, rfl⟩

end Sys2Proof.Machine
end

section
/-!
PROOFS. Steps: what an input can do, said once for all of them, the gathered invariant of 10_state.md R37 as a step
lemma, and what else every step keeps or never does.
-/
namespace Sys2Proof.Machine

/-! ### What an input can do -/

/-- The state an accepted LOAD of `bytes` leaves (43_control.md R178). -/
def State.afterLoad (s : State) (bytes : List Byte) : State :=
  (({ s with mem := Memory.ofBytes 0 bytes, rawLen := bytes.length }.setWindow 0 bytes.length).beginAttempt
    .idle).answer .ok 0

theorem hostLoad_of_accepted {s : State} {bytes : List Byte} (hphase : s.phase ≠ .active)
    (hlen : bytes.length ≤ s.rawMax) : hostLoad bytes s = .next (s.afterLoad bytes) := by
  obtain ⟨hreason, -⟩ | ⟨-, -, hload⟩ := hostLoad_cases bytes s
  · exact absurd hreason (not_or.mpr ⟨hphase, Nat.not_lt.mpr hlen⟩)
  · exact hload

/-- Every next state an input is answered with. -/
theorem perform_cases {input : Input} {s t : State} (h : perform input s = .next t) :
    t = s.answer .refused 0 ∨
    (∃ word i, input = .command word ∧ decodeWord word = .ok i ∧ exec i s = .next t) ∨
    (∃ bytes, bytes.length ≤ s.rawMax ∧ t = s.afterLoad bytes) ∨
    t = { s with reply := .view s.view } ∨
    t = { State.reset with inbox := s.inbox, rawMax := s.rawMax } := by
  cases input with
  | command word =>
    cases hword : decodeWord word with
    | error e => exact .inl (Host.Outcome.next.inj ((runWord_error hword s).symm.trans h)).symm
    | ok i => exact .inr (.inl ⟨word, i, rfl, hword, (runWord_ok hword s).symm.trans h⟩)
  | load bytes =>
    obtain ⟨-, hload⟩ | ⟨-, hlen, hload⟩ := hostLoad_cases bytes s
    · exact .inl (Host.Outcome.next.inj (hload.symm.trans h)).symm
    · exact .inr (.inr (.inl ⟨bytes, hlen, (Host.Outcome.next.inj (hload.symm.trans h)).symm⟩))
  | read => exact .inr (.inr (.inr (.inl (Host.Outcome.next.inj h).symm)))
  | reset => exact .inr (.inr (.inr (.inr (Host.Outcome.next.inj h).symm)))

/-! ### The invariant -/

/-- R37 does not speak of the answer. -/
theorem State.Inv.answer {s : State} (h : s.Inv) (r : Resp) (d : Value) : (s.answer r d).Inv :=
  { h with }

/-- An attempt that begins in IDLE or ACTIVE satisfies R37 as soon as the memory and the window do. -/
theorem State.inv_beginAttempt {s : State} {p : Phase} (hmax : 14 ≤ s.rawMax) (hraw : s.rawLen ≤ s.rawMax)
    (hmem : s.mem.map Prod.fst = List.range s.rawLen) (hbase : s.base = 0 ∨ s.base = 14)
    (hwindow : s.base + s.len ≤ s.rawLen) (hp : p = .idle ∨ p = .active) : (s.beginAttempt p).Inv where
  rawMax_least := hmax
  rawLen_le := hraw
  mem_addresses := hmem
  base_values := hbase
  window := hwindow
  cursor := Nat.zero_le _
  err_iff := by obtain rfl | rfl := hp <;> simp
  fault_out _ := rfl
  idle_clean _ := ⟨rfl, rfl, rfl⟩
  out_rom := by simp
  out_length := Nat.zero_le _
  done_rest := by obtain rfl | rfl := hp <;> simp

/-- The fault entry keeps R37 (60_exceptions.md R196). -/
theorem State.Inv.enterFault {s : State} (h : s.Inv) {f : ErrCode} (hf : f ≠ .none) : (s.enterFault f).Inv :=
  { h with
    err_iff := iff_of_true hf rfl
    fault_out := fun _ => rfl
    idle_clean := by simp
    out_rom := by simp
    out_length := Nat.zero_le _
    done_rest := by simp }

/-- A whole pass over the buffer ends in a state of R37. -/
theorem State.Inv.withDecodePass {s : State} {buf : List Byte} (h : s.Inv) (hbuf : s.buffer = some buf) :
    ((s.beginAttempt .done).withPass (decodePass buf)).Inv :=
  have hpass : Pass.AfterCodes buf (8 * s.len / 6) (decodePass buf) :=
    State.buffer_length hbuf ▸ decodePass_afterCodes buf
  { h with
    cursor := by
      simp only [State.withPass_cur, State.withPass_len, State.beginAttempt_len, hpass.cur]
      omega
    err_iff := by simp
    fault_out := by simp
    idle_clean := by simp
    out_rom := fun ch hch => by
      obtain ⟨c, rfl⟩ := hpass.out_rom ch hch
      exact rom_mem c
    out_length := by simp [hpass.cur, hpass.out_length]
    done_rest := fun _ => by
      simp only [State.withPass_cur, State.withPass_len, State.beginAttempt_len, hpass.cur]
      omega }

/-- Decoding one more code of the buffer keeps R37. -/
theorem State.Inv.advance {s : State} (h : s.Inv) (hphase : s.phase = .active) (hrem : 6 ≤ 8 * s.len - s.cur)
    (buf : List Byte) : (s.withPass (s.pass.advance buf)).Inv :=
  have hlen := h.out_length
  { h with
    cursor := by
      simp only [State.withPass_cur, Pass.advance_cur, State.pass_cur, State.withPass_len]
      omega
    fault_out := by simp [hphase]
    idle_clean := by simp [hphase]
    out_rom := by
      intro ch hch
      obtain hch | hch := List.mem_append.mp hch
      · exact h.out_rom ch hch
      · exact List.mem_singleton.mp hch ▸ rom_mem _
    out_length := by
      simp only [State.withPass_out, Pass.advance_out, State.pass_out, List.length_append, List.length_singleton,
        State.withPass_cur, Pass.advance_cur, State.pass_cur]
      omega
    done_rest := by simp [hphase] }

/-- Every command keeps the invariant. -/
theorem State.Effect.inv {i : Instr} {s t : State} (h : s.Effect i t) (hinv : s.Inv) : t.Inv := by
  cases h with
  | refused | lookedUp => exact hinv.answer _ _
  | opened =>
    exact (State.inv_beginAttempt hinv.rawMax_least hinv.rawLen_le hinv.mem_addresses hinv.base_values hinv.window
      (.inr rfl)).answer _ _
  | decoded hbuf => exact (hinv.withDecodePass hbuf).answer _ _
  | advanced hphase hrem => exact (hinv.advance hphase hrem _).answer _ _
  | ended hphase hrem =>
    have herr : s.err = .none := by simpa [hphase] using hinv.err_iff
    exact { hinv with
      err_iff := by simp [herr]
      fault_out := by simp
      idle_clean := by simp
      done_rest := fun _ => hrem }
  | misframed => exact (hinv.enterFault (by decide)).answer _ _
  | framed hphase hfits =>
    exact (State.inv_beginAttempt (s := s.setWindow 14 s.frameLength) hinv.rawMax_least hinv.rawLen_le
      hinv.mem_addresses (.inr rfl) hfits (.inl rfl)).answer _ _
  | exhausted => exact (hinv.enterFault (by decide)).answer _ _
  | @readField w v hphase hend =>
    exact { hinv with
      cursor := hend
      idle_clean := by simp [hphase]
      out_length := hinv.out_length.trans (Nat.div_le_div_right (Nat.le_add_right _ _))
      done_rest := by simp [hphase] }

/-- An accepted LOAD keeps the invariant. -/
theorem State.Inv.afterLoad {s : State} (h : s.Inv) {bytes : List Byte} (hlen : bytes.length ≤ s.rawMax) :
    (s.afterLoad bytes).Inv := by
  have hmem : (Memory.ofBytes 0 bytes).map Prod.fst = List.range bytes.length :=
    (Memory.ofBytes_addresses bytes 0).trans List.range_eq_range'.symm
  exact (State.inv_beginAttempt
    (s := { s with mem := Memory.ofBytes 0 bytes, rawLen := bytes.length }.setWindow 0 bytes.length)
    h.rawMax_least hlen hmem (.inl rfl) (Nat.zero_add _).le (.inl rfl)).answer _ _

/-- The power-on state satisfies R37 with every RAW_MAX that R7 allows and with every inbox. -/
theorem State.inv_reset (rest : List Input) {rawMax : Nat} (hmax : 14 ≤ rawMax) :
    { State.reset with inbox := rest, rawMax := rawMax }.Inv :=
  { State.inv_beginAttempt (s := { State.reset with rawMax := rawMax }) hmax (Nat.zero_le _) rfl (.inl rfl)
      (Nat.le_refl _) (.inl rfl) with }

/-- Settles O9: an attempt that begins over no payload. -/
theorem resetSatisfiesTheInvariant : Obligations.ResetSatisfiesTheInvariant :=
  State.inv_reset [] (by decide)

/-- Settles O45: taking the input keeps the invariant, and so does every effect of a command, every accepted LOAD and
the reset. -/
theorem everyStepKeepsTheInvariant : Obligations.EveryStepKeepsTheInvariant := by
  unfold Obligations.EveryStepKeepsTheInvariant
  intro s t hinv hstep
  obtain ⟨input, rest, -, hperform⟩ := step_cases hstep
  have htaken := hinv.setInbox rest
  obtain rfl | ⟨word, i, -, -, hexec⟩ | ⟨bytes, hlen, rfl⟩ | rfl | rfl := perform_cases hperform
  · exact htaken.answer _ _
  · exact (exec_effect hexec).inv htaken
  · exact htaken.afterLoad hlen
  · exact { htaken with }
  · exact State.inv_reset rest hinv.rawMax_least

/-- Settles O46: every input has a next state, the invariant being kept when the input is taken. -/
theorem everyInputIsAnswered : Obligations.EveryInputIsAnswered := by
  unfold Obligations.EveryInputIsAnswered
  intro s hinv hinbox
  obtain ⟨input, rest, hinbox⟩ := List.exists_cons_of_ne_nil hinbox
  rw [step_of_cons hinbox]
  exact perform_exists_next input (hinv.setInbox rest)

/-! ### What every step keeps or never does -/

/-- No command is without a meaning: every branch answers, or is the fault of an absent byte. -/
theorem exec_ne_refused (i : Instr) (s : State) (r : Refusal) : exec i s ≠ .refused r := by
  cases i with
  | start => simp [exec, execStart_eq]
  | lookup c => simp [exec, execLookup_eq]
  | decode | dec1 | frame | rdbits w =>
    simp only [exec, execDecode, execDec1, execFrame, execRdbits, State.refuse, State.raise, State.succeed]
    repeat' split
    all_goals simp

/-- No input is without a meaning. -/
theorem perform_ne_refused (input : Input) (s : State) (r : Refusal) : perform input s ≠ .refused r := by
  cases input with
  | command word =>
    cases hword : decodeWord word with
    | error e => simp [perform, runWord_error hword, State.refuse]
    | ok i => simpa only [perform, runWord_ok hword] using exec_ne_refused i s r
  | load bytes =>
    obtain ⟨-, hload⟩ | ⟨-, -, hload⟩ := hostLoad_cases bytes s
    · simp [perform, hload]
    · simp [perform, hload]
  | read => simp [perform, hostRead]
  | reset => simp [perform, platformReset]

/-- Settles O6: with an input pending the step carries it out, and no input is without a meaning. -/
theorem onlyAnEmptyInboxHasNoStep : Obligations.OnlyAnEmptyInboxHasNoStep := by
  unfold Obligations.OnlyAnEmptyInboxHasNoStep
  intro s
  cases hinbox : s.inbox with
  | nil => simp [step_of_nil hinbox]
  | cons input rest => simp [step_of_cons hinbox, perform_ne_refused]

/-- Every input leaves the later ones and RAW_MAX as they are. -/
theorem perform_keeps_inbox {input : Input} {s t : State} (h : perform input s = .next t) :
    t.inbox = s.inbox ∧ t.rawMax = s.rawMax := by
  obtain rfl | ⟨word, i, -, -, hexec⟩ | ⟨bytes, -, rfl⟩ | rfl | rfl := perform_cases h
  · exact ⟨rfl, rfl⟩
  · obtain ⟨-, -, hinbox, hmax⟩ := exec_keeps_memory_and_inbox hexec
    exact ⟨hinbox, hmax⟩
  · exact ⟨rfl, rfl⟩
  · exact ⟨rfl, rfl⟩
  · exact ⟨rfl, rfl⟩

/-- Settles O7: a step takes the oldest input and carries it out, which leaves the rest of the inbox. -/
theorem stepTakesOneInputInOrder : Obligations.StepTakesOneInputInOrder := by
  unfold Obligations.StepTakesOneInputInOrder
  intro s t hstep
  obtain ⟨input, rest, hinbox, hperform⟩ := step_cases hstep
  obtain ⟨hrest, hmax⟩ := perform_keeps_inbox hperform
  exact ⟨⟨input, hrest ▸ hinbox⟩, hmax⟩

/-- A command keeps ERR, clears it, or latches Framing or BufferExhausted. -/
theorem State.Effect.err {i : Instr} {s t : State} (h : s.Effect i t) :
    t.err = s.err ∨ t.err = .none ∨ t.err = .framing ∨ t.err = .bufferExhausted := by
  cases h with
  | refused | lookedUp | advanced | ended | readField => exact .inl rfl
  | opened | decoded | framed => exact .inr (.inl rfl)
  | misframed => exact .inr (.inr (.inl rfl))
  | exhausted => exact .inr (.inr (.inr rfl))

/-- Settles O39: no effect of a command, nor any other input, writes InvalidText. -/
theorem invalidTextIsNeverLatched : Obligations.InvalidTextIsNeverLatched := by
  unfold Obligations.InvalidTextIsNeverLatched
  intro s t hstep herr
  obtain ⟨input, rest, -, hperform⟩ := step_cases hstep
  obtain rfl | ⟨word, i, -, -, hexec⟩ | ⟨bytes, -, rfl⟩ | rfl | rfl := perform_cases hperform
  · exact herr
  · obtain h | h | h | h := (exec_effect hexec).err
    · exact h ▸ herr
    · simp [h]
    · simp [h]
    · simp [h]
  · exact ErrCode.noConfusion
  · exact herr
  · exact ErrCode.noConfusion

/-! ### The code grid -/

/-- A pass from cursor 0 stands at six bits per character (41_alphabet_decoder.md R139). -/
theorem decodePass_onGrid (buf : List Byte) : 6 * (decodePass buf).out.length = (decodePass buf).cur := by
  have hpass := decodePass_afterCodes buf
  rw [hpass.out_length, hpass.cur]

/-- Every command but RDBITS keeps the cursor at six bits per character, or ends in FAULT. -/
theorem State.Effect.onGrid {i : Instr} {s t : State} (h : s.Effect i t) (hi : ∀ w, i ≠ .rdbits w)
    (hgrid : s.onGrid) : t.onGrid := by
  cases h with
  | refused | lookedUp => exact hgrid
  | opened | framed => exact .inr rfl
  | decoded => exact .inr (decodePass_onGrid _)
  | advanced hphase =>
    have hcur : 6 * s.out.length = s.cur := hgrid.resolve_left (by simp [hphase])
    right
    simp only [State.answer_out, State.withPass_out, Pass.advance_out, State.pass_out, List.length_append,
      List.length_singleton, State.answer_cur, State.withPass_cur, Pass.advance_cur, State.pass_cur]
    omega
  | ended hphase => exact .inr (hgrid.resolve_left (by simp [hphase]))
  | misframed => exact .inl rfl
  | exhausted | readField => exact absurd rfl (hi _)

/-- Settles O47: a command keeps the grid unless it is RDBITS, and the other inputs keep it or begin at cursor 0. -/
theorem codeGridIsKeptWithoutRdbits : Obligations.CodeGridIsKeptWithoutRdbits := by
  unfold Obligations.CodeGridIsKeptWithoutRdbits
  intro s t hgrid hstep hother
  obtain ⟨input, rest, hinbox, hperform⟩ := step_cases hstep
  obtain rfl | ⟨word, i, rfl, hword, hexec⟩ | ⟨bytes, -, rfl⟩ | rfl | rfl := perform_cases hperform
  · exact hgrid
  · refine (exec_effect hexec).onGrid (fun w hi => ?_) hgrid
    exact hother word rest w hinbox (hi ▸ hword)
  · exact .inr rfl
  · exact hgrid
  · exact .inr rfl

end Sys2Proof.Machine
end

section
/-!
PROOFS. The bitstream reader: the order of stream bits (20_memory.md R53, R54), the precondition of `read_bits`
(40_bitstream_reader.md R115, R116), consecutive reads (R117) and the chunk algorithm (R112, R113).
-/
namespace Sys2Proof.Machine

/-! ### Stream bits and single bytes -/

theorem streamBit_eq (buf : List Byte) (i : Nat) {j : Nat} (hj : j < 8) :
    streamBit buf (8 * i + j) = (buf.getD i 0).getLsbD (7 - j) := by
  rw [streamBit, show (8 * i + j) / 8 = i by omega, show (8 * i + j) % 8 = j by omega]

/-- Settles O16: the quotient and the remainder of the position by 8. -/
theorem streamBitsRunFromBitSevenOfEachByte : Obligations.StreamBitsRunFromBitSevenOfEachByte := by
  unfold Obligations.StreamBitsRunFromBitSevenOfEachByte
  intro buf b i j hb hj
  rw [streamBit_eq buf i hj, List.getD_eq_getElem?_getD, hb, Option.getD_some]

/-- A field inside one byte is a slice of that byte. -/
theorem fieldValue_eq_slice (buf : List Byte) (i : Nat) {off n : Nat} (h : off + n ≤ 8) :
    fieldValue buf (8 * i + off) n = (buf.getD i 0).toNat / 2 ^ (8 - off - n) % 2 ^ n := by
  refine Nat.eq_of_testBit_eq fun j => ?_
  rw [Nat.testBit_mod_two_pow, Nat.testBit_div_two_pow]
  by_cases hj : j < n
  · have hbit := fieldValue_testBit buf (8 * i + off) n (n - 1 - j) (by omega)
    rw [show n - 1 - (n - 1 - j) = j by omega, Nat.add_assoc, streamBit_eq buf i (by omega),
      ← BitVec.testBit_toNat, show 7 - (off + (n - 1 - j)) = j + (8 - off - n) by omega] at hbit
    simpa [hj] using hbit
  · simp [hj, fieldValue_testBit_of_le buf _ (Nat.le_of_not_lt hj)]

/-! ### The precondition of `read_bits`, and consecutive reads -/

/-- Settles O19: the one test of `read_bits` is its precondition. -/
theorem readBitsHasAValueExactlyInItsPrecondition : Obligations.ReadBitsHasAValueExactlyInItsPrecondition := by
  unfold Obligations.ReadBitsHasAValueExactlyInItsPrecondition
  intro buf c w
  rw [readBits, Option.isSome_ite]

/-- A longer field as a value: the shorter field shifted over the next one. -/
theorem valueOfNat_fieldValue_add (buf : List Byte) (c : Nat) {a b : Nat} (h : a + b ≤ 32) :
    valueOfNat (fieldValue buf c (a + b)) =
      (valueOfNat (fieldValue buf c a) <<< b ||| valueOfNat (fieldValue buf (c + a) b)) := by
  have hz := fieldValue_lt_word buf c h
  rw [fieldValue_add] at hz ⊢
  apply BitVec.eq_of_toNat_eq
  rw [valueOfNat_toNat hz, BitVec.toNat_or, BitVec.toNat_shiftLeft,
    valueOfNat_toNat (fieldValue_lt_word buf c (by omega)), valueOfNat_toNat (fieldValue_lt_word buf _ (by omega)),
    Nat.shiftLeft_eq, Nat.mod_eq_of_lt (by omega), ← Nat.shiftLeft_eq,
    Nat.shiftLeft_add_eq_or_of_lt (fieldValue_lt buf _ b)]

/-- Settles O18: the three reads lie within the buffer, and the longer field is the two others side by side. -/
theorem consecutiveReadsCompose : Obligations.ConsecutiveReadsCompose := by
  unfold Obligations.ConsecutiveReadsCompose
  intro buf c a b ha hb hmax hend
  exact ⟨_, _, _, readBits_eq ha (by omega) (by omega), readBits_eq hb (by omega) (by omega),
    readBits_eq (by omega) hmax hend, valueOfNat_fieldValue_add buf c hmax⟩

/-! ### The chunk algorithm -/

/-- One chunk of R112: the shifted and masked byte is the field of the `n` bits that the byte still gives. -/
theorem chunk_eq_fieldValue (buf : List Byte) (c : Nat) {n : Nat} (h : n ≤ 8 - c % 8) :
    ((buf.getD (c / 8) 0).toNat >>> (8 - c % 8 - n)) &&& ((1 <<< n) - 1) = fieldValue buf c n := by
  have hslice := fieldValue_eq_slice buf (c / 8) (off := c % 8) (n := n) (by omega)
  rw [Nat.div_add_mod] at hslice
  rw [hslice, Nat.one_shiftLeft, Nat.and_two_pow_sub_one_eq_mod, Nat.shiftRight_eq_div_pow]

/-- The loop appends the field that remains to what it has gathered. Each iteration but the last ends at the end of a
byte, so that the bits left, counted from the start of their first byte, fit the iterations left. -/
theorem chunkLoop_eq (buf : List Byte) (fuel acc c w : Nat) (h : w ≤ 8 * fuel - c % 8) :
    chunkLoop buf fuel acc c w = some (acc * 2 ^ w + fieldValue buf c w, c + w) := by
  induction fuel generalizing acc c w with
  | zero =>
    obtain rfl : w = 0 := by omega
    simp [chunkLoop, fieldValue]
  | succ fuel ih =>
    rw [chunkLoop]
    split
    case isTrue hw =>
      subst hw
      simp [fieldValue]
    case isFalse hw =>
      have hn : min (8 - c % 8) w ≤ 8 - c % 8 := Nat.min_le_left _ _
      generalize hmin : min (8 - c % 8) w = n at hn
      obtain ⟨k, rfl⟩ : ∃ k, w = n + k := ⟨w - n, by omega⟩
      simp only [hmin]
      rw [chunk_eq_fieldValue buf c hn, ← Nat.shiftLeft_add_eq_or_of_lt (fieldValue_lt buf c n), Nat.shiftLeft_eq,
        Nat.add_sub_cancel_left, ih _ _ _ (by omega), fieldValue_add, Nat.pow_add, Nat.add_assoc c n k]
      congr 2
      ring

/-- Settles O17: a field of at most 32 bits touches at most five bytes, and the loop started at 0 gathers it. -/
theorem chunkAlgorithmComputesTheField : Obligations.ChunkAlgorithmComputesTheField := by
  unfold Obligations.ChunkAlgorithmComputesTheField
  intro buf c w hmin hmax hend
  have hloop := chunkLoop_eq buf 5 0 c w (by omega)
  rw [Nat.zero_mul, Nat.zero_add] at hloop
  exact ⟨_, _, hloop, readBits_eq hmin hmax hend, (valueOfNat_toNat (fieldValue_lt_word buf c hmax)).symm,
    fieldValue_lt buf c w⟩

end Sys2Proof.Machine
end

section
/-!
PROOFS. The decode pass: the ROM (41_alphabet_decoder.md R131), the laws of a full pass (R139, R141), DECODE and its
equivalence with START and DEC1 (R140), DECODE twice (R142).
-/
namespace Sys2Proof.Machine

/-! ### The ROM -/

theorem romTable_getElem? (c : Code) : romTable[c.toNat]? = some (rom c) := List.getElem?_eq_getElem _

/-- The entries run from the space on (41_alphabet_decoder.md R131 (e)). -/
theorem rom_toNat (c : Code) : (rom c).toNat = c.toNat + 0x20 := by
  revert c
  decide

/-- Settles O13: the entries by index, and their bit 7. -/
theorem romIsTheAsciiTable : Obligations.RomIsTheAsciiTable := by
  unfold Obligations.RomIsTheAsciiTable
  exact ⟨romTable_length, by decide, fun c => ⟨romTable_getElem? c, rom_toNat c, rom_getLsbD_seven c⟩⟩

/-! ### The laws of a full pass -/

/-- Settles O22: the pass has read every complete code. -/
theorem fullPassLaws : Obligations.FullPassLaws := by
  unfold Obligations.FullPassLaws
  intro buf
  have hpass := decodePass_afterCodes buf
  refine ⟨_, rfl, by omega, hpass.out_length, hpass.cur, ?discarded, hpass.val⟩
  case discarded =>
    rw [hpass.cur]
    omega

/-- A pass that has read `k` codes is one over every buffer with the same codes. -/
theorem Pass.AfterCodes.congr {buf buf' : List Byte} {k : Nat} {p : Pass} (h : Pass.AfterCodes buf k p)
    (hcodes : ∀ j, j < k → codeAt buf (6 * j) = codeAt buf' (6 * j)) : Pass.AfterCodes buf' k p where
  cur := h.cur
  out_length := h.out_length
  out_get j hj := hcodes j hj ▸ h.out_get j hj
  val := by
    rw [h.val]
    split
    case isTrue => rfl
    case isFalse hk => rw [hcodes (k - 1) (by omega)]

/-- A code depends only on its own stream bits. -/
theorem codeAt_congr {buf buf' : List Byte} {c : Nat}
    (h : ∀ p, c ≤ p → p < c + 6 → streamBit buf p = streamBit buf' p) : codeAt buf c = codeAt buf' c := by
  rw [codeAt, codeAt, fieldValue_congr h]

/-- Settles O25: the two buffers have the same complete codes, and these determine the pass. -/
theorem paddingBitsDoNotMatter : Obligations.PaddingBitsDoNotMatter := by
  unfold Obligations.PaddingBitsDoNotMatter
  intro buf buf' hlen hbits
  have hpass : Pass.AfterCodes buf' (8 * buf'.length / 6) (decodePass buf) := by
    rw [← hlen]
    exact (decodePass_afterCodes buf).congr fun j hj => codeAt_congr fun p _ hp => hbits p (by omega)
  exact hpass.unique (decodePass_afterCodes buf')

/-! ### DECODE -/

/-- Settles O23: the invariant gives the buffer, and the pass over it has read its complete codes. -/
theorem decodeRunsTheWholePass : Obligations.DecodeRunsTheWholePass := by
  unfold Obligations.DecodeRunsTheWholePass
  refine ⟨by decide, fun s hinv => ?_⟩
  obtain ⟨buf, hbuf, hlen⟩ := hinv.exists_buffer
  have hpass := decodePass_afterCodes buf
  rw [hlen] at hpass
  have hval : (decodePass buf).val =
      if 8 * s.len / 6 = 0 then 0 else (codeAt buf (6 * (8 * s.len / 6 - 1))).setWidth 32 := hpass.val
  refine ⟨buf, _, hbuf, rfl, hpass.out_length, (execDecode_eq hbuf).trans ?_⟩
  rw [← hval, ← hpass.cur, hpass.out_length]
  rfl

/-- Settles O48: DECODE keeps the buffer, and its outcome depends on nothing else that it could have changed. -/
theorem decodeTwiceGivesTheSame : Obligations.DecodeTwiceGivesTheSame := by
  unfold Obligations.DecodeTwiceGivesTheSame
  intro s t h
  have hkept := exec_keeps_buffer h (by decide)
  obtain ⟨buf, hbuf, rfl⟩ := execDecode_cases h
  exact execDecode_eq (hkept.trans hbuf)

/-! ### DECODE as START and DEC1 -/

/-- One more repetition, at the end. -/
theorem execTimes_succ_of_next {i : Instr} {k : Nat} {s t : State} (h : execTimes i k s = .next t) :
    execTimes i (k + 1) s = exec i t := by
  induction k generalizing s with
  | zero =>
    obtain rfl := Host.Outcome.next.inj h
    rw [execTimes]
    cases exec i s <;> rfl
  | succ k ih =>
    rw [execTimes] at h ⊢
    split at h
    case h_1 u hu => exact ih h
    case h_2 => cases h
    case h_3 => cases h

/-- The state `u` with the pass `p` in it and the answer `r`. -/
def State.atPass (u : State) (p : Pass) (r : Reply) : State := { u.withPass p with reply := r }

theorem State.atPass_buffer (u : State) (p : Pass) (r : Reply) : (u.atPass p r).buffer = u.buffer :=
  State.buffer_congr rfl rfl rfl rfl

/-- After `k` codes MORE says whether a complete code is left. -/
theorem State.atPass_more_iff {u : State} {buf : List Byte} {k : Nat} {p : Pass} (r : Reply)
    (hbuf : u.buffer = some buf) (hp : Pass.AfterCodes buf k p) :
    (u.atPass p r).more = true ↔ k < 8 * buf.length / 6 := by
  have hlen : (u.atPass p r).len = buf.length := (State.buffer_length hbuf).symm
  have hcur : (u.atPass p r).cur = 6 * k := hp.cur
  rw [State.more_iff, hlen, hcur]
  omega

/-- In an open pass the first DEC1 commands read one code each, while complete codes are left. -/
theorem execTimes_dec1_of_codes {u : State} {buf : List Byte} (hphase : u.phase = .active)
    (hbuf : u.buffer = some buf) (hstart : u.pass = Pass.start) {k : Nat} (hk : k ≤ 8 * buf.length / 6) :
    ∃ p r, Pass.AfterCodes buf k p ∧ execTimes .dec1 k u = .next (u.atPass p r) := by
  induction k with
  | zero => exact ⟨u.pass, u.reply, hstart ▸ .start buf, rfl⟩
  | succ k ih =>
    obtain ⟨p, r, hp, htimes⟩ := ih (by omega)
    have hmore := (State.atPass_more_iff r hbuf hp).mpr hk
    have hread := (u.atPass_buffer p r).trans hbuf
    exact ⟨p.advance buf, _, hp.advance, (execTimes_succ_of_next htimes).trans (execDec1_of_more hphase hmore hread)⟩

/-- In an open pass the DEC1 command after the last complete code ends it, with the whole pass over the buffer. -/
theorem execTimes_dec1_ends {u : State} {buf : List Byte} (hphase : u.phase = .active) (hbuf : u.buffer = some buf)
    (hstart : u.pass = Pass.start) :
    execTimes .dec1 (8 * buf.length / 6 + 1) u =
      .next { u.withPass (decodePass buf) with phase := .done, reply := .response .ok 0 } := by
  obtain ⟨p, r, hp, htimes⟩ := execTimes_dec1_of_codes hphase hbuf hstart (Nat.le_refl _)
  have hmore := (State.atPass_more_iff r hbuf hp).not.mpr (Nat.lt_irrefl _)
  obtain rfl := hp.unique (decodePass_afterCodes buf)
  exact (execTimes_succ_of_next htimes).trans (execDec1_of_not_more hphase hmore)

/-- Settles O24: START opens a pass at its first code, the DEC1 commands read the complete codes one by one, and the
pass they end is the one DECODE runs. -/
theorem decodeIsStartThenDec1UntilDone : Obligations.DecodeIsStartThenDec1UntilDone := by
  unfold Obligations.DecodeIsStartThenDec1UntilDone
  intro s hinv
  obtain ⟨buf, hbuf, hlen⟩ := hinv.exists_buffer
  have hopened := (exec_keeps_buffer (i := .start) (execStart_eq s) (by decide)).trans hbuf
  rw [← hlen]
  refine ⟨_, _, _, execDecode_eq hbuf, execStart_eq s, fun k hk => ?_, execTimes_dec1_ends rfl hopened rfl, rfl, rfl⟩
  obtain ⟨p, r, -, htimes⟩ := execTimes_dec1_of_codes rfl hopened rfl hk
  exact ⟨_, htimes, rfl⟩

end Sys2Proof.Machine
end

section
/-!
PROOFS. The packed stream: four codes in three bytes (30_encoding.md R81), and the text that comes back from the
reference encoder (70_reset_and_hazards.md R228).
-/
namespace Sys2Proof.Machine

/-! ### Codes in bytes -/

/-- A code inside one byte. -/
theorem codeAt_within_byte (buf : List Byte) (i : Nat) {off : Nat} (h : off ≤ 2) :
    (codeAt buf (8 * i + off)).toNat = (buf.getD i 0).toNat / 2 ^ (2 - off) % 2 ^ 6 := by
  rw [codeAt_toNat, fieldValue_eq_slice buf i (by omega), show 8 - off - 6 = 2 - off by omega]

/-- A code that begins in one byte and ends in the next. -/
theorem codeAt_across_bytes (buf : List Byte) (i : Nat) {off : Nat} (hmin : 2 ≤ off) (hmax : off ≤ 8) :
    (codeAt buf (8 * i + off)).toNat =
      (buf.getD i 0).toNat % 2 ^ (8 - off) * 2 ^ (off - 2) + (buf.getD (i + 1) 0).toNat / 2 ^ (10 - off) := by
  have hlo := (buf.getD (i + 1) 0).isLt
  have hsplit : 6 = (8 - off) + (off - 2) := by omega
  have hnext : 8 * i + off + (8 - off) = 8 * (i + 1) + 0 := by omega
  have hwidth : 2 ^ (10 - off) * 2 ^ (off - 2) = 2 ^ 8 := by rw [← Nat.pow_add]; congr 1; omega
  rw [codeAt_toNat, hsplit, fieldValue_add, hnext, fieldValue_eq_slice buf i (by omega),
    fieldValue_eq_slice buf (i + 1) (by omega), show 8 - off - (8 - off) = 0 by omega,
    show 8 - 0 - (off - 2) = 10 - off by omega, Nat.pow_zero, Nat.div_one,
    Nat.mod_eq_of_lt (Nat.div_lt_of_lt_mul (hwidth ▸ hlo))]

/-- The four codes of the `g`-th group of three bytes. -/
theorem codeAt_group (buf : List Byte) (g : Nat) :
    (codeAt buf (6 * (4 * g))).toNat = (buf.getD (3 * g) 0).toNat / 4 ∧
    (codeAt buf (6 * (4 * g + 1))).toNat =
      (buf.getD (3 * g) 0).toNat % 4 * 16 + (buf.getD (3 * g + 1) 0).toNat / 16 ∧
    (codeAt buf (6 * (4 * g + 2))).toNat =
      (buf.getD (3 * g + 1) 0).toNat % 16 * 4 + (buf.getD (3 * g + 2) 0).toNat / 64 ∧
    (codeAt buf (6 * (4 * g + 3))).toNat = (buf.getD (3 * g + 2) 0).toNat % 64 := by
  have hfirst := codeAt_within_byte buf (3 * g) (off := 0) (by decide)
  have hsecond := codeAt_across_bytes buf (3 * g) (off := 6) (by decide) (by decide)
  have hthird := codeAt_across_bytes buf (3 * g + 1) (off := 4) (by decide) (by decide)
  have hfourth := codeAt_within_byte buf (3 * g + 2) (off := 2) (by decide)
  have hb0 := (buf.getD (3 * g) 0).isLt
  rw [show 8 * (3 * g) + 0 = 6 * (4 * g) by omega] at hfirst
  rw [show 8 * (3 * g) + 6 = 6 * (4 * g + 1) by omega] at hsecond
  rw [show 8 * (3 * g + 1) + 4 = 6 * (4 * g + 2) by omega] at hthird
  rw [show 8 * (3 * g + 2) + 2 = 6 * (4 * g + 3) by omega] at hfourth
  exact ⟨by omega, hsecond, hthird, by omega⟩

/-- Settles O26: the codes of a group, with masks for remainders and shifts for products and quotients. -/
theorem fourCodesFillThreeBytes : Obligations.FourCodesFillThreeBytes := by
  unfold Obligations.FourCodesFillThreeBytes
  intro buf g b0 b1 b2 h0 h1 h2
  have hb1 := b1.isLt
  have hb2 := b2.isLt
  have hmask2 : b0.toNat &&& 3 = b0.toNat % 4 := Nat.and_two_pow_sub_one_eq_mod b0.toNat 2
  have hmask4 : b1.toNat &&& 15 = b1.toNat % 16 := Nat.and_two_pow_sub_one_eq_mod b1.toNat 4
  have hmask6 : b2.toNat &&& 63 = b2.toNat % 64 := Nat.and_two_pow_sub_one_eq_mod b2.toNat 6
  have hgroup := codeAt_group buf g
  simp only [List.getD_eq_getElem?_getD, h0, h1, h2, Option.getD_some] at hgroup
  rw [hmask2, hmask4, hmask6, ← Nat.shiftLeft_add_eq_or_of_lt (i := 4) (by omega),
    ← Nat.shiftLeft_add_eq_or_of_lt (i := 2) (by omega)]
  simpa only [Nat.shiftLeft_eq, Nat.shiftRight_eq_div_pow, Nat.reducePow] using hgroup

/-! ### Buffers put together -/

theorem streamBit_append_left {a : List Byte} (b : List Byte) {p : Nat} (h : p < 8 * a.length) :
    streamBit (a ++ b) p = streamBit a p := by
  rw [streamBit, streamBit, List.getD_append _ _ _ _ (by omega)]

theorem streamBit_append_right (a b : List Byte) (p : Nat) :
    streamBit (a ++ b) (8 * a.length + p) = streamBit b p := by
  rw [streamBit, streamBit, show (8 * a.length + p) / 8 = a.length + p / 8 by omega,
    show (8 * a.length + p) % 8 = p % 8 by omega, List.getD_append_right _ _ _ _ (by omega), Nat.add_sub_cancel_left]

theorem fieldValue_append_right (a b : List Byte) (c w : Nat) :
    fieldValue (a ++ b) (8 * a.length + c) w = fieldValue b c w := by
  induction w with
  | zero => rfl
  | succ w ih => rw [fieldValue, fieldValue, ih, Nat.add_assoc, streamBit_append_right]

theorem codeAt_append_left {a : List Byte} (b : List Byte) {c : Nat} (h : c + 6 ≤ 8 * a.length) :
    codeAt (a ++ b) c = codeAt a c :=
  codeAt_congr fun _ _ hp => streamBit_append_left b (by omega)

theorem codeAt_append_right (a b : List Byte) (c : Nat) : codeAt (a ++ b) (8 * a.length + c) = codeAt b c := by
  rw [codeAt, codeAt, fieldValue_append_right]

/-! ### The text of a buffer -/

/-- R139's closed form, as one list. -/
theorem decodeString_eq_map (buf : List Byte) :
    decodeString buf = (List.range (8 * buf.length / 6)).map fun k => rom (codeAt buf (6 * k)) := by
  obtain ⟨hlen, hget⟩ := decodeStringClosedForm buf
  refine List.ext_getElem? fun k => ?_
  by_cases hk : k < 8 * buf.length / 6
  · simp [hget k hk, hk]
  · rw [List.getElem?_eq_none (by omega), List.getElem?_eq_none (by simpa using hk)]

/-- Whole groups of three bytes decode on their own. -/
theorem decodeString_append_group {a : List Byte} (b : List Byte) (ha : a.length = 3) :
    decodeString (a ++ b) = decodeString a ++ decodeString b := by
  have hright : ∀ k, codeAt (a ++ b) (6 * (4 + k)) = codeAt b (6 * k) := fun k => by
    rw [← codeAt_append_right a b, ha]
    congr 1
    omega
  simp only [decodeString_eq_map, List.length_append, ha, show 8 * (3 + b.length) / 6 = 4 + 8 * b.length / 6 by omega,
    List.range_add, List.map_append, List.map_map, Function.comp_def, hright]
  congr 1
  refine List.map_congr_left fun k hk => ?_
  have hk := List.mem_range.mp hk
  rw [codeAt_append_left b (by omega)]

/-- The first bytes of a buffer decode to the first characters of its text. -/
theorem decodeString_take {buf : List Byte} {n : Nat} (h : n ≤ buf.length) :
    decodeString (buf.take n) = (decodeString buf).take (8 * n / 6) := by
  have hlen : (buf.take n).length = n := List.length_take_of_le h
  simp only [decodeString_eq_map, hlen, ← List.map_take, List.take_range,
    Nat.min_eq_left (show 8 * n / 6 ≤ 8 * buf.length / 6 by omega)]
  refine List.map_congr_left fun k hk => ?_
  have hk := List.mem_range.mp hk
  conv_rhs => rw [← List.take_append_drop n buf]
  rw [codeAt_append_left _ (by omega)]

/-! ### The reference encoder -/

@[simp] theorem packGroup_length (c0 c1 c2 c3 : Code) : (packGroup c0 c1 c2 c3).length = 3 := rfl

/-- The bytes of a group, by the numbers of its codes. -/
theorem packGroup_toNat (c0 c1 c2 c3 : Code) :
    ((packGroup c0 c1 c2 c3).getD 0 0).toNat = c0.toNat * 4 + c1.toNat / 16 ∧
    ((packGroup c0 c1 c2 c3).getD 1 0).toNat = c1.toNat % 16 * 16 + c2.toNat / 4 ∧
    ((packGroup c0 c1 c2 c3).getD 2 0).toNat = c2.toNat % 4 * 64 + c3.toNat := by
  have h0 := c0.isLt
  have h1 := c1.isLt
  have h2 := c2.isLt
  have h3 := c3.isLt
  have hbits : (c0 ++ c1 ++ c2 ++ c3).toNat = ((c0.toNat * 64 + c1.toNat) * 64 + c2.toNat) * 64 + c3.toNat := by
    rw [BitVec.toNat_append, BitVec.toNat_append, BitVec.toNat_append, ← Nat.shiftLeft_add_eq_or_of_lt h1,
      ← Nat.shiftLeft_add_eq_or_of_lt h2, ← Nat.shiftLeft_add_eq_or_of_lt h3]
    simp only [Nat.shiftLeft_eq, Nat.reducePow]
  simp only [packGroup, List.getD_cons_zero, List.getD_cons_succ, BitVec.extractLsb'_toNat, hbits,
    Nat.shiftRight_eq_div_pow]
  omega

/-- The codes of a group come back from its bytes. -/
theorem codeAt_packGroup (c0 c1 c2 c3 : Code) :
    codeAt (packGroup c0 c1 c2 c3) 0 = c0 ∧ codeAt (packGroup c0 c1 c2 c3) 6 = c1 ∧
    codeAt (packGroup c0 c1 c2 c3) 12 = c2 ∧ codeAt (packGroup c0 c1 c2 c3) 18 = c3 := by
  have h1 := c1.isLt
  have h2 := c2.isLt
  have h3 := c3.isLt
  obtain ⟨hbyte0, hbyte1, hbyte2⟩ := packGroup_toNat c0 c1 c2 c3
  obtain ⟨hcode0, hcode1, hcode2, hcode3⟩ := codeAt_group (packGroup c0 c1 c2 c3) 0
  simp only [Nat.mul_zero, Nat.zero_add, Nat.reduceMul, hbyte0, hbyte1, hbyte2] at hcode0 hcode1 hcode2 hcode3
  simp only [← BitVec.toNat_inj]
  omega

/-- A group decodes to its four characters. -/
theorem decodeString_packGroup (c0 c1 c2 c3 : Code) :
    decodeString (packGroup c0 c1 c2 c3) = [rom c0, rom c1, rom c2, rom c3] := by
  obtain ⟨hcode0, hcode1, hcode2, hcode3⟩ := codeAt_packGroup c0 c1 c2 c3
  have hcount : List.range (8 * 3 / 6) = [0, 1, 2, 3] := by decide
  simp only [decodeString_eq_map, packGroup_length, hcount, List.map_cons, List.map_nil, Nat.reduceMul, hcode0,
    hcode1, hcode2, hcode3]

/-- Settles O27: group by group; one or two codes left over fill the first bytes of a group, and three of them fill a
group together with the padding. -/
theorem packedTextDecodesToItself : Obligations.PackedTextDecodesToItself := by
  unfold Obligations.PackedTextDecodesToItself
  intro pad codes
  induction codes using packCodes.induct with
  | case1 => rfl
  | case2 c0 =>
    rw [packCodes, decodeString_take (by simp), decodeString_packGroup]
    rfl
  | case3 c0 c1 =>
    rw [packCodes, decodeString_take (by simp), decodeString_packGroup]
    rfl
  | case4 c0 c1 c2 => simp [packCodes, decodeString_packGroup]
  | case5 c0 c1 c2 c3 rest ih =>
    have hcount : (c0 :: c1 :: c2 :: c3 :: rest).length % 4 = rest.length % 4 := Nat.add_mod_right _ 4
    rw [packCodes, decodeString_append_group _ rfl, decodeString_packGroup, ih, hcount]
    rfl

end Sys2Proof.Machine
end

section
/-!
PROOFS. The framer and the host moves: the length field (30_encoding.md R85), FRAME as `extract_text_segment`
(42_payload_framer.md R161), FRAME twice (R166), LOAD (43_control.md R178), READ (R179), the pipeline (R181), the state
before any LOAD (70_reset_and_hazards.md R221), and what commands read of the memory (42_payload_framer.md R165).
-/
namespace Sys2Proof.Machine

/-! ### The length field -/

/-- Settles O28: the two bytes stand side by side in the field. -/
theorem lengthFieldIsBigEndian : Obligations.LengthFieldIsBigEndian := by
  unfold Obligations.LengthFieldIsBigEndian
  intro hi lo
  have hhi := hi.isLt
  have hlo := lo.isLt
  refine ⟨lengthField_toNat hi lo, BitVec.eq_of_toNat_eq ?high, BitVec.eq_of_toNat_eq ?low⟩
  case high =>
    rw [BitVec.extractLsb'_toNat, lengthField_toNat, Nat.shiftRight_eq_div_pow]
    omega
  case low =>
    rw [BitVec.extractLsb'_toNat, lengthField_toNat, Nat.shiftRight_eq_div_pow]
    omega

/-! ### FRAME of a readable payload -/

/-- A byte of the payload is the byte at its address. -/
theorem State.payload_getElem? {s : State} {raw : List Byte} (h : s.payload = some raw) {a : Nat}
    (ha : a < s.rawLen) : s.memRead a = raw[a]? := by
  simpa using (State.readRange_spec h).2 a ha

theorem State.payload_length {s : State} {raw : List Byte} (h : s.payload = some raw) : raw.length = s.rawLen :=
  (State.readRange_spec h).1

/-- A window inside the payload holds the slice of the payload. -/
theorem State.setWindow_buffer {s : State} {raw : List Byte} (h : s.payload = some raw) {b n : Nat}
    (hfits : b + n ≤ raw.length) : (s.setWindow b n).buffer = some ((raw.drop b).take n) := by
  have hlen : ((raw.drop b).take n).length = n := by
    rw [List.length_take, List.length_drop]
    omega
  have hread : s.readRange b n = some ((raw.drop b).take n) := by
    conv_lhs => rw [← hlen]
    refine State.readRange_of_bytes fun i hi => ?_
    rw [hlen] at hi
    rw [State.payload_getElem? h (State.payload_length h ▸ (by omega)), List.getElem?_take_of_lt hi,
      List.getElem?_drop]
  have hkept : (s.setWindow b n).readRange b n = s.readRange b n :=
    State.readRange_congr fun i _ => State.memRead_congr rfl rfl _
  exact hkept.trans hread

theorem extractTextSegment_of_short {raw : List Byte} (h : raw.length < 14) : extractTextSegment raw = none := by
  have hlo : raw[13]? = none := List.getElem?_eq_none (by omega)
  simp [extractTextSegment, hlo]

/-- The segment, once both bytes of the length field are there (42_payload_framer.md R162 to R164). -/
theorem extractTextSegment_of_bytes {raw : List Byte} {hi lo : Byte} (hhi : raw[12]? = some hi)
    (hlo : raw[13]? = some lo) : extractTextSegment raw =
      if 14 + (lengthField hi lo).toNat ≤ raw.length then some ((raw.drop 14).take (lengthField hi lo).toNat)
      else none := by
  simp only [extractTextSegment, Config.lengthOffset, Config.segmentOffset, Nat.reduceAdd, hhi, hlo]

/-- FRAME outside a pass sets the window to the extracted segment, or faults when there is none. -/
theorem execFrame_of_payload {s : State} {raw : List Byte} (hphase : s.phase ≠ .active)
    (hraw : s.payload = some raw) :
    (extractTextSegment raw = none ∧ execFrame s = s.raise .framing) ∨
    ∃ seg, extractTextSegment raw = some seg ∧ (s.setWindow 14 seg.length).buffer = some seg ∧
      execFrame s =
        .next (((s.setWindow 14 seg.length).beginAttempt .idle).answer .ok (valueOfNat seg.length)) := by
  have hlen := State.payload_length hraw
  by_cases hshort : s.rawLen < 14
  · exact .inl ⟨extractTextSegment_of_short (by omega), execFrame_of_short hphase hshort⟩
  · have hhi : raw[12]? = some raw[12] := List.getElem?_eq_getElem (by omega)
    have hlo : raw[13]? = some raw[13] := List.getElem?_eq_getElem (by omega)
    have hextract := extractTextSegment_of_bytes hhi hlo
    have hframe := execFrame_of_bytes hphase hshort ((State.payload_getElem? hraw (by omega)).trans hhi)
      ((State.payload_getElem? hraw (by omega)).trans hlo)
    generalize (lengthField raw[12] raw[13]).toNat = n at hextract hframe
    by_cases hfits : 14 + n ≤ raw.length
    · have hseg : ((raw.drop 14).take n).length = n := by
        rw [List.length_take, List.length_drop]
        omega
      refine .inr ⟨_, hextract.trans (if_pos hfits), ?_, ?_⟩
      · rw [hseg]
        exact State.setWindow_buffer hraw hfits
      · rw [hseg]
        exact hframe.trans (if_neg (by omega))
    · exact .inl ⟨hextract.trans (if_neg hfits), hframe.trans (if_pos (by omega))⟩

/-- Beginning an attempt and answering leave the buffer. -/
theorem State.beginAttempt_answer_buffer (s : State) (p : Phase) (r : Resp) (d : Value) :
    ((s.beginAttempt p).answer r d).buffer = s.buffer :=
  State.buffer_congr rfl rfl rfl rfl

/-- Settles O30: the invariant gives the payload, and FRAME of it is the extraction. -/
theorem frameComputesExtractTextSegment : Obligations.FrameComputesExtractTextSegment := by
  unfold Obligations.FrameComputesExtractTextSegment
  intro s hinv hphase
  obtain ⟨raw, hraw, -⟩ := hinv.exists_payload
  refine ⟨raw, hraw, ?_⟩
  obtain ⟨hnone, hframe⟩ | ⟨seg, hseg, hbuf, hframe⟩ := execFrame_of_payload hphase hraw
  · rw [hnone]
    exact hframe
  · rw [hseg]
    exact ⟨_, hframe, rfl, (State.beginAttempt_answer_buffer _ _ _ _).trans hbuf, rfl⟩

/-- A FRAME past its first two checks has read both bytes of the length field. -/
theorem execFrame_bytes {s t : State} (hphase : s.phase ≠ .active) (hlong : ¬ s.rawLen < 14)
    (h : execFrame s = .next t) : ∃ hi lo, s.memRead 12 = some hi ∧ s.memRead 13 = some lo := by
  rw [execFrame, if_neg hphase, if_neg hlong] at h
  split at h
  case h_1 hi lo hhi hlo => exact ⟨hi, lo, hhi, hlo⟩
  case h_2 => cases h

/-- Settles O31: FRAME leaves the payload, which alone its later checks and its effect depend on. -/
theorem frameTwiceSetsTheSameWindow : Obligations.FrameTwiceSetsTheSameWindow := by
  unfold Obligations.FrameTwiceSetsTheSameWindow
  intro s t hphase h
  obtain ⟨hmem, hrawLen, -, -⟩ := exec_keeps_memory_and_inbox h
  have hread := State.memRead_congr hmem hrawLen
  have ht : t.phase ≠ .active := by
    rw [exec_phase h, State.phaseAfter, if_neg hphase]
    split <;> decide
  by_cases hshort : s.rawLen < 14
  · obtain rfl := Host.Outcome.next.inj ((execFrame_of_short hphase hshort).symm.trans h)
    exact execFrame_of_short ht hshort
  · obtain ⟨hi, lo, hhi, hlo⟩ := execFrame_bytes hphase hshort h
    have hframe := (execFrame_of_bytes hphase hshort hhi hlo).symm.trans h
    have hagain := execFrame_of_bytes ht (hrawLen ▸ hshort) ((hread 12).trans hhi) ((hread 13).trans hlo)
    split_ifs at hframe with hfails
    · obtain rfl := Host.Outcome.next.inj hframe
      exact hagain.trans (if_pos hfails)
    · obtain rfl := Host.Outcome.next.inj hframe
      exact hagain.trans (if_neg hfails)

/-! ### LOAD -/

theorem State.afterLoad_memRead (s : State) (bytes : List Byte) (a : Nat) :
    (s.afterLoad bytes).memRead a = bytes[a]? := by
  change (if a < bytes.length then (Memory.ofBytes 0 bytes).read a else none) = bytes[a]?
  split
  case isTrue => rw [Memory.read_ofBytes, if_pos (Nat.zero_le a), Nat.sub_zero]
  case isFalse ha => rw [List.getElem?_eq_none (Nat.le_of_not_lt ha)]

/-- After LOAD the payload and the buffer are the loaded bytes. -/
theorem State.afterLoad_readRange (s : State) (bytes : List Byte) :
    (s.afterLoad bytes).readRange 0 bytes.length = some bytes :=
  State.readRange_of_bytes fun i _ => by rw [Nat.zero_add, State.afterLoad_memRead]

/-- Settles O32: LOAD's two outcomes, and what can be read after the second. -/
theorem loadPutsThePayloadInMemory : Obligations.LoadPutsThePayloadInMemory := by
  unfold Obligations.LoadPutsThePayloadInMemory
  intro s bytes rest hinbox
  rw [step_of_cons hinbox]
  refine ⟨fun hreason => perform_of_refuses (input := .load bytes) (s := { s with inbox := rest }) hreason,
    fun hphase hlen => ⟨_, hostLoad_of_accepted (s := { s with inbox := rest }) hphase hlen, ?_⟩⟩
  exact ⟨State.afterLoad_memRead _ bytes, State.afterLoad_readRange _ bytes, State.afterLoad_readRange _ bytes, rfl⟩

/-- Settles O49: LOAD leaves a readable payload outside a pass, FRAME of it is the extraction, and DECODE decodes the
window it set. -/
theorem pipelineDecodesTheTextSegment : Obligations.PipelineDecodesTheTextSegment := by
  unfold Obligations.PipelineDecodesTheTextSegment
  intro s raw hphase hlen
  refine ⟨_, hostLoad_of_accepted hphase hlen, ?_⟩
  obtain ⟨hnone, hframe⟩ | ⟨seg, hseg, hbuf, hframe⟩ :=
    execFrame_of_payload (s := s.afterLoad raw) (by simp [State.afterLoad]) (State.afterLoad_readRange s raw)
  · rw [hnone]
    exact ⟨_, hframe, rfl, rfl, rfl⟩
  · rw [hseg]
    exact ⟨_, _, hframe, execDecode_eq ((State.beginAttempt_answer_buffer _ _ _ _).trans hbuf), rfl, rfl, rfl⟩

/-! ### READ -/

/-- Under the invariant READ shows exactly the bytes below RAWLEN. -/
theorem State.Inv.mem_view_iff {s : State} (h : s.Inv) (a : Nat) (b : Byte) :
    (a, b) ∈ s.view.mem ↔ s.memRead a = some b := by
  simp only [State.view, List.mem_filter, decide_eq_true_eq, State.memRead, ← Memory.read_eq_some_iff h.mem_wf]
  split
  case isTrue ha => simp [ha]
  case isFalse ha => simp [ha]

/-- Settles O33: READ's one outcome; its memory column by the invariant. -/
theorem readObservesAndChangesNothing : Obligations.ReadObservesAndChangesNothing := by
  unfold Obligations.ReadObservesAndChangesNothing
  intro s rest hinbox
  exact ⟨s.view, step_of_cons hinbox, rfl, rfl, rfl, rfl, rfl, rfl, rfl, rfl, rfl, rfl, romTable_length,
    romTable_getElem?, fun hinv => hinv.mem_view_iff⟩

/-- The fields of a byte put together as STATUS is. -/
theorem statusFields (more : Bool) (err phase : BitVec 2) :
    (0b000#3 ++ BitVec.ofBool more ++ err ++ phase).extractLsb' 0 2 = phase ∧
    (0b000#3 ++ BitVec.ofBool more ++ err ++ phase).extractLsb' 2 2 = err ∧
    (0b000#3 ++ BitVec.ofBool more ++ err ++ phase).getLsbD 4 = more ∧
    (0b000#3 ++ BitVec.ofBool more ++ err ++ phase).extractLsb' 5 3 = 0 := by
  revert more err phase
  decide

/-- Settles O34: the fields of the byte, and what MORE says. -/
theorem statusByteLayout : Obligations.StatusByteLayout := by
  unfold Obligations.StatusByteLayout
  intro s
  obtain ⟨hphase, herr, hmore, hzero⟩ := statusFields s.more s.err.code s.phase.code
  exact ⟨hphase, herr, by rw [← s.more_iff, ← hmore]; rfl, hzero⟩

/-! ### Before any LOAD -/

/-- A window of no bytes is readable and empty. -/
theorem State.buffer_of_len_zero {s : State} (h : s.len = 0) : s.buffer = some [] := by
  rw [State.buffer, h, State.readRange]

/-- Settles O10: with no payload FRAME meets a short one; with an empty window DECODE and DEC1 find no code, and every
field exceeds it. -/
theorem nothingIsReadBeforeALoad : Obligations.NothingIsReadBeforeALoad := by
  unfold Obligations.NothingIsReadBeforeALoad
  intro s hraw _ hlen hcur hphase
  refine ⟨fun a => by simp [State.memRead, hraw], ?frame, execDecode_eq (State.buffer_of_len_zero hlen), fun t ht => ?_⟩
  case frame => exact execFrame_of_short (by simp [hphase]) (by omega)
  obtain rfl := Host.Outcome.next.inj ((execStart_eq s).symm.trans ht)
  refine ⟨execDec1_of_not_more rfl ?_, fun w hw => execRdbits_of_exhausts hw rfl ?_⟩
  · rw [State.more_iff]
    simp [hlen]
  · have hmin : 1 ≤ w.toNat := hw.1
    change 8 * s.len < 0 + w.toNat
    omega

/-! ### What commands read of the memory -/

/-- A command's outcome depends on MEM only through the buffer and the bytes 12 and 13: its tests are the same, and so
is the outcome of each of its branches, but for MEM. -/
theorem exec_setMem (i : Instr) {s : State} {m : Memory} (hbuf : { s with mem := m }.buffer = s.buffer)
    (hhi : { s with mem := m }.memRead 12 = s.memRead 12) (hlo : { s with mem := m }.memRead 13 = s.memRead 13) :
    exec i { s with mem := m } = outcomeWithMem m (exec i s) := by
  have hmore : { s with mem := m }.more = s.more := rfl
  have htotal : { s with mem := m }.totalBits = s.totalBits := rfl
  cases i with
  | start => rfl
  | lookup c => rfl
  | decode | dec1 | frame | rdbits w =>
    simp only [exec, execDecode, execDec1, execFrame, execRdbits, Config.lengthOffset, Nat.reduceAdd, hbuf, hmore,
      htotal, hhi, hlo]
    repeat' split
    all_goals rfl

/-- Settles O43: a memory that reads alike in the window has the same buffer. -/
theorem commandsReadOnlyLengthFieldAndWindow : Obligations.CommandsReadOnlyLengthFieldAndWindow := by
  unfold Obligations.CommandsReadOnlyLengthFieldAndWindow
  intro i s m halike
  refine exec_setMem i (State.readRange_congr fun k hk => ?_) (halike 12 (.inl rfl)) (halike 13 (.inr (.inl rfl)))
  exact halike _ (.inr (.inr ⟨Nat.le_add_right _ _, Nat.add_lt_add_left hk _⟩))

end Sys2Proof.Machine
end
